-- ==== Sys2Proof/Word.lean ====
section
/-! DEFINITION. The block's words: a byte, a 16-bit position word, a 32-bit port argument
(spec/00_scope.md R6, spec/10_state.md R12 to R15). -/

namespace Sys2Proof

/-- A byte, an 8-bit unsigned value 0..255 (R6). -/
abbrev Byte := BitVec 8

/-- A 16-bit position word: a packed bound or position (R44), the reply field `raw` (R15). -/
abbrev Half := BitVec 16

/-- A 32-bit two's-complement port value (`ARG_WIDTH`, R5): the arguments `a`, `b` and the response `pos`. -/
abbrev Arg := BitVec 32

end Sys2Proof
end

