-- ==== Sys2Proof/Config.lean ====
section
/-! DEFINITION. The implementation parameters of spec/00_scope.md R5 that a block may hold in more than one
value. They are constant for the life of the block (spec/10_state.md R17). The parameters R5 fixes to one
number stand in Sys2Proof/Machine/Constants.lean. -/

namespace Sys2Proof

/-- `READPOS_MODE` (R5, decision D6): READPOS emits a Read request (R67) or reports itself unsupported (R68). -/
inductive ReadposMode where
  | emitRead
  | unsupported
deriving DecidableEq, Repr

/-- `POS_ORDER_A` (R5, decision D12): the byte order of the position field on reply path A (R72). -/
inductive ByteOrder where
  | le
  | be
deriving DecidableEq, Repr

/-- One block's configuration (R5): an argument of the block's step, not a field of its state (R17). DESIGN CHOICE (log entry
15): `RAW_LO` and `RAW_HI` are constants. -/
structure Config where
  /-- `READPOS_MODE`, default `EMIT_READ`. -/
  readposMode : ReadposMode
  /-- `POS_ORDER_A`, default `LE`. -/
  posOrderA : ByteOrder
  /-- `RAW_SIGNED`, default `true`. -/
  rawSigned : Bool
  /-- `SERVO_MIN`, OPEN, a 32-bit signed integer (D16). -/
  servoMin : Arg
  /-- `SERVO_MAX`, OPEN, a 32-bit signed integer (D16). -/
  servoMax : Arg
  /-- `RX_MAX`, 255 by decision D17, at least 15. -/
  rxMax : Nat
  /-- `PORT_BASE`, OPEN, used by the host only, never by the block (D18). -/
  portBase : Int
  /-- `ENC_LATENCY`, OPEN, no rule depends on it (D1). -/
  encLatency : Nat
  /-- `DEC_LATENCY`, OPEN, no rule depends on it (D1). -/
  decLatency : Nat
deriving DecidableEq, Repr

/-- The default configuration of R5. DESIGN CHOICE (log entry 2): `SERVO_MIN`, `SERVO_MAX`, `PORT_BASE` and the
two latencies are OPEN in the spec; the values here are those of spec/95_test_vectors.md P2 (0 and 1000) and
zero, and no statement rests on them. -/
def Config.default : Config where
  readposMode := .emitRead
  posOrderA := .le
  rawSigned := true
  servoMin := 0
  servoMax := 1000
  rxMax := 255
  portBase := 0
  encLatency := 0
  decLatency := 0

end Sys2Proof
end

