-- ==== Sys2Proof/Machine/Constants.lean ====
section
/-! DEFINITION. The numbers the spec fixes for every block: frame marker, instruction codes (R39), control-table
addresses (R22), clamp bounds, move constants and reply geometry (R5). -/

namespace Sys2Proof.Machine

/-- `FRAME_MARKER` (R5, R35): the two bytes at frame offsets 0 and 1. -/
def frameMarker : List Byte := [0xFF, 0xFF]

/-- Ping (R39, R54). -/
def instrPing : Byte := 0x01
/-- Read (R39, R55). -/
def instrRead : Byte := 0x02
/-- Write (R39, R56). -/
def instrWrite : Byte := 0x03
/-- RegWrite (R39, R57). -/
def instrRegWrite : Byte := 0x04
/-- Action (R39, R58). -/
def instrAction : Byte := 0x05
/-- Recover (R39, R59). -/
def instrRecover : Byte := 0x06
/-- SyncWrite (R39, R60). -/
def instrSyncWrite : Byte := 0x83
/-- Reset (R39, R61). -/
def instrReset : Byte := 0x0A

/-- The eight instruction codes, "Immutable, defined once, never extended at runtime" (R39). -/
def instrCodes : List Byte :=
  [instrPing, instrRead, instrWrite, instrRegWrite, instrAction, instrRecover, instrSyncWrite, instrReset]

/-- `TORQUE_ENABLE`, control-table address 40 (R22). -/
def addrTorqueEnable : Byte := 40
/-- `GOAL_POSITION_LOW`, address 42 (R22). -/
def addrGoalPositionLow : Byte := 42
/-- `GOAL_POSITION_HIGH`, address 43 (R22). -/
def addrGoalPositionHigh : Byte := 43
/-- `GOAL_TIME_LOW`, address 44 (R22). -/
def addrGoalTimeLow : Byte := 44
/-- `GOAL_TIME_HIGH`, address 45 (R22). -/
def addrGoalTimeHigh : Byte := 45
/-- `GOAL_SPEED_LOW`, address 46 (R22). -/
def addrGoalSpeedLow : Byte := 46
/-- `GOAL_SPEED_HIGH`, address 47 (R22). -/
def addrGoalSpeedHigh : Byte := 47
/-- `PRESENT_POSITION_LOW`, address 56 (R22). -/
def addrPresentPositionLow : Byte := 56
/-- `PRESENT_POSITION_HIGH`, address 57 (R22). -/
def addrPresentPositionHigh : Byte := 57

/-- `CLAMP_LO` (R5, R43). -/
def clampLo : Int := 0
/-- `CLAMP_HI` (R5, R43). -/
def clampHi : Int := 1023
/-- `MOVE_TIME`, the goal-time placeholder (R5, R28). -/
def moveTime : Half := 0
/-- `MOVE_SPEED`, the fixed goal speed (R5, R28). -/
def moveSpeed : Half := 1000
/-- How many bytes a READPOS request asks for: the present-position pair (R31, R67). -/
def readposCount : Byte := 2
/-- `REPLY_LEN` (R5, R71). -/
def replyLen : Nat := 14
/-- `POS_OFFSET` (R5, R72): the field is at this offset and the next. -/
def posOffset : Nat := 11
/-- The mirrored offset at which path B reads the reversed buffer (R73, decision D12). -/
def posOffsetReversed : Nat := 1
/-- `PAYLOAD_MAX` (R5, R38). -/
def payloadMax : Nat := 252
/-- `FRAME_MAX` (R5, R35). -/
def frameMax : Nat := 259
/-- `RAW_LO`, the anchor of the remap (R5, R75, decision D15). -/
def rawLo : Int := 0
/-- `RAW_HI` (R5, R75, decision D15). -/
def rawHi : Int := 1000
/-- The least `RX_MAX` a block may have (R5, R92). -/
def rxMaxLeast : Nat := 15

end Sys2Proof.Machine
end

