-- ==== Sys2Proof/Machine/Framing.lean ====
section
/-! DEFINITION. The checksum-16 generator (R48) and the frame assembler (R52). -/

namespace Sys2Proof.Machine

/-- The 16-bit accumulator after the bytes of `s`, cleared at the start of the frame (R48). -/
def checksumAcc (s : List Byte) : Half := s.foldl (fun acc b => acc + b.zeroExtend 16) 0

/-- `Checksum(s)`: the low byte of the complemented accumulator (R48). -/
def checksum (s : List Byte) : Byte := (~~~ checksumAcc s).extractLsb' 0 8

/-- The bytes of a frame from `id` through the last payload byte: shape S1 when there is no register (R36), shape S2
when there is one (R37). `msgLen` is 2 or `3 + n` (R38). -/
def frameBody (instr id : Byte) (reg : Option Byte) (p : List Byte) : List Byte :=
  match reg with
  | none => [id, 2, instr]
  | some r => [id, BitVec.ofNat 8 (3 + p.length), instr, r] ++ p

/-- `Frame(instr, id, reg?, p)` (R52): marker, body, checksum. -/
def frame (instr id : Byte) (reg : Option Byte) (p : List Byte) : List Byte :=
  frameMarker ++ frameBody instr id reg p ++ [checksum (frameBody instr id reg p)]

end Sys2Proof.Machine
end

