-- ==== Sys2Proof/Machine/Operands.lean ====
section
/-! DEFINITION. Operand assembly and field extraction: the instruction-code check (R39, R40), the saturating clamp
(R7, R43), the byte splits (R44), the reply field on both paths (R72, R73), its sign (R74) and the remap (R75). -/

namespace Sys2Proof.Machine

/-- Whether a byte is one of the eight instruction codes, matched on all 8 bits (R39, R40). -/
def isBusCode (b : Byte) : Bool := instrCodes.contains b

/-- `clamp(x, lo, hi)` (R7). -/
def clamp (x lo hi : Int) : Int := if x < lo then lo else if hi < x then hi else x

/-- `Clamp10(sext_32(x))` as the 16-bit value the packer splits (R43). -/
def clamp10 (x : Arg) : Half := BitVec.ofInt 16 (clamp x.toInt clampLo clampHi)

/-- The low byte `v[7:0]` (R6). -/
def lowByte (v : Half) : Byte := v.extractLsb' 0 8

/-- The next byte `v[15:8]` (R6). -/
def highByte (v : Half) : Byte := v.extractLsb' 8 8

/-- `LE16(v)`, low byte first (R44). -/
def le16 (v : Half) : List Byte := [lowByte v, highByte v]

/-- `BE16(v)`, high byte first (R44). -/
def be16 (v : Half) : List Byte := [highByte v, lowByte v]

/-- The 16-bit word whose high byte is `hi` and low byte is `lo` (R72). -/
def joinBytes (hi lo : Byte) : Half := (hi.zeroExtend 16 <<< 8) ||| lo.zeroExtend 16

/-- Two bytes in buffer order read as one field in the given byte order (R72). -/
def readField (order : ByteOrder) (first second : Byte) : Half :=
  match order with
  | .le => joinBytes second first
  | .be => joinBytes first second

/-- Byte `k` of a reply. Every index this model reads is below the reply's 14 bytes (R71 checks the length first). -/
def replyByte (rx : List Byte) (k : Nat) : Byte := rx.getD k 0

/-- `FieldA(rx)`: the field at offsets 11 and 12 (R72). -/
def fieldA (order : ByteOrder) (rx : List Byte) : Half :=
  readField order (replyByte rx posOffset) (replyByte rx (posOffset + 1))

/-- `FieldB(rx)`: path A's reader applied to the reversed buffer at offsets 1 and 2 (R73). -/
def fieldB (order : ByteOrder) (rx : List Byte) : Half :=
  readField order (replyByte rx.reverse posOffsetReversed) (replyByte rx.reverse (posOffsetReversed + 1))

/-- The integer the field stands for: `s16(u)` when `RAW_SIGNED`, else `zext_16(u)` (R74). -/
def rawValue (c : Config) (u : Half) : Int := if c.rawSigned then u.toInt else (u.toNat : Int)

/-- The exact integer of the remap, before it is put on the 32-bit port (R75). The divisor is positive, so `/` is the
floor division R7 calls `div`. -/
def remapInt (c : Config) (v : Int) : Int :=
  c.servoMin.toInt + ((clamp v rawLo rawHi - rawLo) * (c.servoMax.toInt - c.servoMin.toInt)) / (rawHi - rawLo)

/-- `Remap(v)` on the 32-bit port `pos` (R75, R15). -/
def remap (c : Config) (v : Int) : Arg := BitVec.ofInt 32 (remapInt c v)

/-- The control-table cells a Write's payload is meant for: byte `p[k]` for address `reg + k`, with no check that the
address stays below 256 (R23). -/
def cellsMeant (reg : Byte) (p : List Byte) : List (Nat × Byte) := p.mapIdx fun k b => (reg.toNat + k, b)

end Sys2Proof.Machine
end

