-- ==== Sys2Proof/Syntax.lean ====
section
/-! DEFINITION. What arrives at the block's two request ports (spec/10_state.md R12, R14) and the instructions of
spec/opcode_table.json those requests select: ONE inductive, one constructor per row. -/

namespace Sys2Proof

/-- One request at the encoder port, field for field (R12). `on` and `hasReg` are the 1-bit fields, `true` for 1. -/
structure EncRequest where
  cmd : BitVec 3
  id : Byte
  on : Bool
  a : Arg
  b : Arg
  instr : Byte
  hasReg : Bool
  reg : Byte
  plen : Byte
  payload : Vector Byte 252
deriving DecidableEq, Repr

/-- One request at the decoder port (R14). The port is drawn at the 255 bytes an 8-bit `rxlen` can count (D17);
only the first `rxlen` bytes are the reply. -/
structure DecRequest where
  path : BitVec 1
  rxlen : Byte
  rx : Vector Byte 255
deriving DecidableEq, Repr

/-- A request, at one port or the other. A program is a sequence of these (R11). -/
inductive Request where
  | enc (r : EncRequest)
  | dec (r : DecRequest)
deriving DecidableEq, Repr

/-- The operands RAW gives beside the instruction code (R53): the target, the optional register, and the payload
with the length the caller declares. `payload` holds the port bytes at index below `plen`. -/
structure RawArgs where
  id : Byte
  hasReg : Bool
  reg : Byte
  plen : Byte
  payload : List Byte
deriving DecidableEq, Repr

/-- The instructions: the eight bus instructions (R54 to R61, reached by a RAW request that names their code), the
eight values of the command select (R41), the two reply paths (R42). -/
inductive Instr where
  /-- `PING_I`, code 0x01 (R54). -/
  | pingI (args : RawArgs)
  /-- `READ_I`, code 0x02 (R55). -/
  | readI (args : RawArgs)
  /-- `WRITE_I`, code 0x03 (R56). -/
  | writeI (args : RawArgs)
  /-- `REGWRITE_I`, code 0x04 (R57). -/
  | regwriteI (args : RawArgs)
  /-- `ACTION_I`, code 0x05 (R58). -/
  | actionI (args : RawArgs)
  /-- `RECOVER_I`, code 0x06 (R59). -/
  | recoverI (args : RawArgs)
  /-- `SYNCWRITE_I`, code 0x83 (R60). -/
  | syncwriteI (args : RawArgs)
  /-- `RESET_I`, code 0x0A (R61). -/
  | resetI (args : RawArgs)
  /-- `PING`, `cmd` 0 (R63). -/
  | ping (id : Byte)
  /-- `TORQUE`, `cmd` 1 (R64). -/
  | torque (id : Byte) (on : Bool)
  /-- `LIMITS`, `cmd` 2 (R65): `a` is min, `b` is max. -/
  | limits (id : Byte) (a b : Arg)
  /-- `MOVE`, `cmd` 3 (R66): `a` is the position. -/
  | move (id : Byte) (a : Arg)
  /-- `READPOS`, `cmd` 4 (R67, R68). -/
  | readpos (id : Byte)
  /-- `RAW`, `cmd` 5 (R53), with any instruction byte. -/
  | raw (instr : Byte) (args : RawArgs)
  /-- `RESERVED_CMD6`, `cmd` 6 (R62). -/
  | reservedCmd6
  /-- `RESERVED_CMD7`, `cmd` 7 (R62). -/
  | reservedCmd7
  /-- `DECODE_A`, `path` 0 (R72): `rx` is the reply as delivered, `rxlen` its length. -/
  | decodeA (rx : List Byte)
  /-- `DECODE_B`, `path` 1 (R73). -/
  | decodeB (rx : List Byte)
deriving DecidableEq, Repr

end Sys2Proof
end

