-- ==== Sys2Proof/WellFormed.lean ====
section
/-! DEFINITION. When an instruction is one a request port can carry, in the form the decoder gives it. -/

namespace Sys2Proof

/-- The payload is exactly the port bytes RAW may read: the first `plen` of the port's 252 (R12). -/
def RawArgs.wf (a : RawArgs) : Bool := a.payload.length == min a.plen.toNat Machine.payloadMax

/-- Well-formedness: RAW operands as R12 carries them, a RAW that is none of the eight bus instructions (those have
constructors of their own, log entry 4), a reply of at most 255 bytes (R14). -/
def Instr.wf : Instr → Bool
  | .pingI a => a.wf
  | .readI a => a.wf
  | .writeI a => a.wf
  | .regwriteI a => a.wf
  | .actionI a => a.wf
  | .recoverI a => a.wf
  | .syncwriteI a => a.wf
  | .resetI a => a.wf
  | .ping _ => true
  | .torque _ _ => true
  | .limits _ _ _ => true
  | .move _ _ => true
  | .readpos _ => true
  | .raw instr a => a.wf && !Machine.isBusCode instr
  | .reservedCmd6 => true
  | .reservedCmd7 => true
  | .decodeA rx => decide (rx.length ≤ 255)
  | .decodeB rx => decide (rx.length ≤ 255)

/-- Whether a block of this configuration has a port wide enough for the request: `rxlen` is at most `RX_MAX` (R14).
A longer delivery cannot be presented (D17); if a caller's list holds one all the same, the decoder answers it as
the malformed reply it is (R71; log entry 12). -/
def Request.presentable (c : Config) : Request → Bool
  | .enc _ => true
  | .dec r => decide (r.rxlen.toNat ≤ c.rxMax)

end Sys2Proof
end

