-- ==== Sys2Proof/Decode.lean ====
section
/-! DEFINITION. The block's two encodings (spec/30_encoding.md). REQUEST ENCODING: from a request at a port to the
instruction it selects (total: every value of `cmd` and `path` is a row of the table), then its encoder. WIRE
ENCODING: from the bytes of a frame to the bus instruction in it, total on any bytes, rejecting by name. -/

namespace Sys2Proof

/-- The bus instruction whose code is `instr`, or none for the 248 illegal codes (R39, R40). -/
def busRow (instr : Byte) : Option (RawArgs → Instr) :=
  if instr = 0x01 then some .pingI
  else if instr = 0x02 then some .readI
  else if instr = 0x03 then some .writeI
  else if instr = 0x04 then some .regwriteI
  else if instr = 0x05 then some .actionI
  else if instr = 0x06 then some .recoverI
  else if instr = 0x83 then some .syncwriteI
  else if instr = 0x0A then some .resetI
  else none

/-- A RAW request selects the bus instruction of its code; with an illegal code it stays RAW, which refuses it
(R40, R53; log entry 4). -/
def decodeRaw (instr : Byte) (a : RawArgs) : Instr :=
  match busRow instr with
  | some row => row a
  | none => .raw instr a

/-- The operands RAW reads from the port; the payload bytes at index `plen` and above are not read (R53). -/
def rawArgsOf (r : EncRequest) : RawArgs where
  id := r.id
  hasReg := r.hasReg
  reg := r.reg
  plen := r.plen
  payload := r.payload.toList.take r.plen.toNat

/-- The command select (R41). A field the command does not list is not read (R70). -/
def decodeEnc (r : EncRequest) : Instr :=
  if r.cmd = 0 then .ping r.id
  else if r.cmd = 1 then .torque r.id r.on
  else if r.cmd = 2 then .limits r.id r.a r.b
  else if r.cmd = 3 then .move r.id r.a
  else if r.cmd = 4 then .readpos r.id
  else if r.cmd = 5 then decodeRaw r.instr (rawArgsOf r)
  else if r.cmd = 6 then .reservedCmd6
  else .reservedCmd7

/-- The path select (R42); the reply is the first `rxlen` bytes (R14). -/
def decodeDec (r : DecRequest) : Instr :=
  if r.path = 0 then .decodeA (r.rx.toList.take r.rxlen.toNat) else .decodeB (r.rx.toList.take r.rxlen.toNat)

/-- The instruction a request selects. -/
def decode : Request → Instr
  | .enc r => decodeEnc r
  | .dec r => decodeDec r

/-- `n` port bytes of which the first are `p`, the rest undriven; an undriven byte is drawn as 0 and nothing reads it
(R46, R70; log entry 10). -/
def padTo (n : Nat) (p : List Byte) : Vector Byte n :=
  ⟨(p.take n ++ List.replicate (n - p.length) 0).toArray, by simp; omega⟩

/-- An encoder request with nothing driven: the start from which a request's fields are set (R46; log entry 10). -/
def EncRequest.blank : EncRequest where
  cmd := 0
  id := 0
  on := false
  a := 0
  b := 0
  instr := 0
  hasReg := false
  reg := 0
  plen := 0
  payload := padTo 252 []

/-- The RAW request for an instruction byte and its operands (R41, row `cmd` = 5). -/
def rawRequestOf (instr : Byte) (a : RawArgs) : Request :=
  .enc { EncRequest.blank with
    cmd := 5, id := a.id, instr := instr, hasReg := a.hasReg, reg := a.reg, plen := a.plen, payload := padTo 252 a.payload }

/-- The decoder request for a path and a reply (R14). -/
def replyRequestOf (path : BitVec 1) (rx : List Byte) : Request :=
  .dec { path := path, rxlen := BitVec.ofNat 8 rx.length, rx := padTo 255 rx }

/-- The encoder: the request that selects an instruction, from the tables of R39, R41 and R42. -/
def encode : Instr → Request
  | .pingI a => rawRequestOf 0x01 a
  | .readI a => rawRequestOf 0x02 a
  | .writeI a => rawRequestOf 0x03 a
  | .regwriteI a => rawRequestOf 0x04 a
  | .actionI a => rawRequestOf 0x05 a
  | .recoverI a => rawRequestOf 0x06 a
  | .syncwriteI a => rawRequestOf 0x83 a
  | .resetI a => rawRequestOf 0x0A a
  | .ping id => .enc { EncRequest.blank with cmd := 0, id := id }
  | .torque id on => .enc { EncRequest.blank with cmd := 1, id := id, on := on }
  | .limits id a b => .enc { EncRequest.blank with cmd := 2, id := id, a := a, b := b }
  | .move id a => .enc { EncRequest.blank with cmd := 3, id := id, a := a }
  | .readpos id => .enc { EncRequest.blank with cmd := 4, id := id }
  | .raw instr a => rawRequestOf instr a
  | .reservedCmd6 => .enc { EncRequest.blank with cmd := 6 }
  | .reservedCmd7 => .enc { EncRequest.blank with cmd := 7 }
  | .decodeA rx => replyRequestOf 0 rx
  | .decodeB rx => replyRequestOf 1 rx

/-- Why bytes are no frame of this bus (R35 to R40, R51). -/
inductive FrameReject where
  /-- Fewer than the six bytes of the shortest frame (R35). -/
  | tooShort
  /-- Offsets 0 and 1 are not `FF FF` (R35). -/
  | badMarker
  /-- `msgLen` is 0 or 1, which the block never emits (R45). -/
  | badMsgLen
  /-- The number of bytes is not `msgLen + 4` (R45). -/
  | badLength
  /-- Byte 4 is none of the eight codes (R40). -/
  | illegalInstr
  /-- The last byte is not the checksum of the bytes before it (R51). -/
  | badChecksum
deriving DecidableEq, Repr

/-- Reads the bytes of one whole frame (R35, R45). `msgLen` 2 is shape S1, 3 and above shape S2. The block itself never does
this; the claims about frames do (log entry 14). -/
def decodeFrame : List Byte → Except FrameReject Instr
  | m0 :: m1 :: id :: msgLen :: instr :: x :: rest =>
    if ¬(m0 = 0xFF ∧ m1 = 0xFF) then .error .badMarker
    else if msgLen.toNat < 2 then .error .badMsgLen
    else if rest.length + 6 ≠ msgLen.toNat + 4 then .error .badLength
    else
      match busRow instr with
      | none => .error .illegalInstr
      | some row =>
        if msgLen = 2 then
          if x = Machine.checksum [id, msgLen, instr] then
            .ok (row { id := id, hasReg := false, reg := 0, plen := 0, payload := [] })
          else .error .badChecksum
        else if rest.getLast? = some (Machine.checksum ([id, msgLen, instr, x] ++ rest.dropLast)) then
          .ok (row { id := id, hasReg := true, reg := x, plen := BitVec.ofNat 8 (msgLen.toNat - 3),
                     payload := rest.dropLast })
        else .error .badChecksum
  | _ => .error .tooShort

/-- Whether bytes are one whole frame. -/
def isFrame (f : List Byte) : Bool := (decodeFrame f).toBool

/-- The wire encoder: the bytes of a bus instruction's frame (R35 to R37), none for any other instruction. -/
def encodeFrame (instr : Byte) (a : RawArgs) : List Byte :=
  let body : List Byte :=
    if a.hasReg then [a.id, 3 + a.plen, instr, a.reg] ++ a.payload else [a.id, 2, instr]
  [0xFF, 0xFF] ++ body ++ [255 - (body.foldl (· + ·) 0)]

/-- What a receiver of the byte stream does (R45): after the marker it reads `msgLen` and takes `msgLen + 4` bytes;
the rest of the stream follows. -/
def splitFrame (stream : List Byte) : Option (List Byte × List Byte) :=
  match stream with
  | m0 :: m1 :: _ :: msgLen :: _ =>
    if m0 = 0xFF ∧ m1 = 0xFF ∧ msgLen.toNat + 4 ≤ stream.length then
      some (stream.splitAt (msgLen.toNat + 4))
    else none
  | _ => none

/-- The request a row of spec/opcode_table.json stands for, every other field undriven (log entry 5). The table numbers
three different fields from bit 0: `path` (1 bit), `cmd` (3 bits) and frame byte 4 (8 bits), so one number can name a row
of each. A word of 8 bits is read as an instruction code first, as the table's only 8-bit rows, then as a `cmd`. -/
def tableRequest (nbits w : Nat) : Option Request :=
  if nbits ≤ 1 then
    if w < 2 then some (replyRequestOf (BitVec.ofNat 1 w) []) else none
  else if 4 ≤ nbits ∧ w < 256 ∧ Machine.isBusCode (BitVec.ofNat 8 w) then
    some (.enc { EncRequest.blank with cmd := 5, instr := BitVec.ofNat 8 w })
  else if w < 8 then some (.enc { EncRequest.blank with cmd := BitVec.ofNat 3 w })
  else none

/-- What the decoder reads from a table word (fixed name of the host). -/
def decodeTableWord (nbits w : Nat) : Option Instr := (tableRequest nbits w).map decode

end Sys2Proof
end

