-- ==== Sys2Proof/Machine/State.lean ====
section
/-! DEFINITION. The machine's state: the output latches (spec/10_state.md R16), the TX stream (R18), the inputs that
have arrived and wait to be served (R11, R88, R90). The configuration is no state of the block (R17): `Block` is the state,
and `State` packs it with the configuration it is stepped under, for the host's interface (log entry 1). -/

namespace Sys2Proof.Machine

/-- The status codes (R79). -/
inductive Status where
  /-- `OK`, code 0. -/
  | ok
  /-- `MALFORMED_REPLY`, code 1. -/
  | malformedReply
  /-- `UNSUPPORTED`, code 2. -/
  | unsupported
  /-- `ERR_CMD`, code 3. -/
  | errCmd
  /-- `ERR_INSTR`, code 4. -/
  | errInstr
  /-- `ERR_SHAPE`, code 5. -/
  | errShape
  /-- `ERR_MSGLEN`, code 6. -/
  | errMsglen
  /-- `NONE`, code 7: no transaction since reset, never returned. -/
  | noneYet
deriving DecidableEq, Repr

/-- The output latches a caller may read (R16); a frame latch is one of 259 bytes. -/
inductive Latch where
  | encStatus
  | encLen
  | encFrame (i : Fin 259)
  | decStatus
  | decRaw
  | decPos
deriving DecidableEq, Repr

/-- What a latch read hands the caller, at the latch's width (R16). -/
inductive LatchValue where
  | status (code : BitVec 3)
  | len (n : BitVec 9)
  | byte (b : Byte)
  | raw (u : Half)
  | pos (p : Arg)
deriving DecidableEq, Repr

/-- What the outside does to the block, in the order it is served (log entry 6). -/
inductive Input where
  /-- A request at one of the ports (R12, R14). -/
  | request (r : Request)
  /-- Reset (R90). `inFlight` is the transaction in progress when it arrives, if there is one; it has
  no effect (log entry 9). -/
  | reset (inFlight : Option Request)
  /-- A caller reads an output latch (R16, R93). -/
  | read (l : Latch)
deriving DecidableEq, Repr

/-- The state of the block and its wrapper: what a step reads and writes. It holds no configuration (R17). -/
structure Block where
  /-- `ENC_STATUS`, 3 bits (R16), by the name of its code. -/
  encStatus : Status
  /-- `ENC_LEN`, 9 bits (R16). -/
  encLen : BitVec 9
  /-- `ENC_FRAME`, 259 bytes (R16): the bytes that hold a value, index 0 first. Every byte from the list's end on is ⊥
  (log entry 3). -/
  encFrame : List Byte
  /-- `DEC_STATUS`, 3 bits (R16). -/
  decStatus : Status
  /-- `DEC_RAW`, 16 bits (R16); `none` is ⊥. -/
  decRaw : Option Half
  /-- `DEC_POS`, 32 bits (R16); `none` is ⊥. -/
  decPos : Option Arg
  /-- `TX`, the append-only byte stream handed to the transport, first byte first (R18, R26). -/
  tx : List Byte
  /-- What has arrived and is not served yet, the next first. The order among callers is not fixed (R88): any list may
  stand here. -/
  inputs : List Input
  /-- The model's own record of the values latch reads have handed out, oldest first (log entry 7). -/
  readLog : List LatchValue
deriving DecidableEq, Repr

/-- The argument the host's interface hands a step: the block's state, and beside it the configuration, which the step takes
as an argument of its own and hands back untouched (`stepUnder`, `State.onBlock`; R17, log entry 1). Two states that
differ in `cfg` are two different blocks. -/
structure State extends Block where
  /-- The configuration this block was built with (R5). -/
  cfg : Config
deriving DecidableEq, Repr

/-- Why the machine stops with a fault. -/
inductive Fault where
  /-- A caller read a latch that holds ⊥ (R16, R82, D21, I7). Raised by a latch read only; safe: real hardware would return
  some bits, the model returns none (log entry 7). -/
  | latchHoldsNoValue (l : Latch)
deriving DecidableEq, Repr

/-- Why the machine refuses to take a step. -/
inductive Refusal where
  /-- The arm of an instruction that has no meaning yet. No arm of this model answers it; safe. -/
  | notModelled (mnemonic : String)
  /-- The configuration breaks R92 item 1: such a block has no step. Raised by `step` only; safe
  (log entry 11). -/
  | invalidConfig
deriving DecidableEq, Repr

/-- The block right after reset at system start (R16, R18, R90): both statuses `NONE`, `ENC_LEN` 0, the data latches ⊥,
`TX` empty, nothing requested. -/
def Block.reset : Block where
  encStatus := .noneYet
  encLen := 0
  encFrame := []
  decStatus := .noneYet
  decRaw := none
  decPos := none
  tx := []
  inputs := []
  readLog := []

/-- The block after reset, to be stepped under the default configuration (R5, log entry 2). -/
def State.reset : State where
  toBlock := Block.reset
  cfg := Config.default

/-- What one step of the block answers. -/
abbrev BlockResult := Host.Outcome Block Fault Refusal

/-- What one step answers at the host's interface. -/
abbrev Result := Host.Outcome State Fault Refusal

end Sys2Proof.Machine
end

