-- ==== Sys2Proof/Machine/Flags.lean ====
section
/-! DEFINITION. The block has no flags (R11). Its one per-transaction indicator is the status: the numeric codes (R79)
and the checks that choose a RAW request's status (R53, R81). -/

namespace Sys2Proof.Machine

/-- The 3-bit code of a status (R79). -/
def statusCode : Status → BitVec 3
  | .ok => 0
  | .malformedReply => 1
  | .unsupported => 2
  | .errCmd => 3
  | .errInstr => 4
  | .errShape => 5
  | .errMsglen => 6
  | .noneYet => 7

/-- The status of a RAW request: instruction, then shape, then length, the first cause reported (R53, R81). -/
def rawStatus (instr : Byte) (a : RawArgs) : Status :=
  if isBusCode instr = false then .errInstr
  else if a.hasReg = false then (if a.plen = 0 then .ok else .errShape)
  else if payloadMax < a.plen.toNat then .errMsglen
  else .ok

end Sys2Proof.Machine
end

