-- ==== Sys2Proof/Machine/Ops.lean ====
section
/-! DEFINITION. The named operations on the state: ending a transaction (R9, R16), transmitting (R18), `raise` (R9, R85,
the block's only exception mechanism: an ordinary return with a status), reset (R90), latch reads (R16), and the
validity of a configuration (R92). There is no trap to enter and none to return from (R84 to R86).
Each works on the block's state; one whose effect depends on the configuration takes it as an argument (R17). -/

namespace Sys2Proof.Machine

/-- The block's answer at the host's interface: beside the configuration it was stepped under (R17, log entry 1). -/
def packResult (c : Config) : BlockResult → Result
  | .next b => .next { toBlock := b, cfg := c }
  | .fault f => .fault f
  | .refused r => .refused r

/-- The block's part of an answer. -/
def blockPart : Result → BlockResult
  | .next s => .next s.toBlock
  | .fault f => .fault f
  | .refused r => .refused r

/-- What `f` does to the block under its configuration. No `f` can write the configuration (R17). -/
def State.onBlock (f : Config → Block → BlockResult) (s : State) : Result := packResult s.cfg (f s.cfg s.toBlock)

/-- `respond_enc(status, frame)`: writes the three encoder latches together (R9, R16). -/
def respondEnc (st : Status) (f : List Byte) (b : Block) : Block :=
  { b with encStatus := st, encLen := BitVec.ofNat 9 f.length, encFrame := f }

/-- `respond_dec(status, raw, pos)`: writes the three decoder latches together (R9, R16). -/
def respondDec (st : Status) (raw : Option Half) (pos : Option Arg) (b : Block) : Block :=
  { b with decStatus := st, decRaw := raw, decPos := pos }

/-- `Transmit(frame)`: the wrapper appends the frame to the TX stream (R18). -/
def transmit (f : List Byte) (b : Block) : Block := { b with tx := b.tx ++ f }

/-- An encoder transaction that ends `OK`: the response, and the wrapper's transmission of it (R18). -/
def emitFrame (f : List Byte) (b : Block) : BlockResult := .next (transmit f (respondEnc .ok f b))

/-- `raise` in an encoder rule: the status, an empty frame, nothing transmitted (R9, R80). -/
def raiseEnc (st : Status) (b : Block) : BlockResult := .next (respondEnc st [] b)

/-- `raise` in a decoder rule: the status, `raw` and `pos` ⊥ (R9, R80). -/
def raiseDec (st : Status) (b : Block) : BlockResult := .next (respondDec st none none b)

/-- The register the assembler is given: present in shape S2 only (R52). -/
def rawReg (a : RawArgs) : Option Byte := if a.hasReg then some a.reg else none

/-- The payload the assembler is given: the first `plen` bytes in shape S2, none in shape S1 (R53). -/
def rawPayload (a : RawArgs) : List Byte := if a.hasReg then a.payload.take a.plen.toNat else []

/-- The frame of a RAW request (R53). -/
def rawFrame (instr : Byte) (a : RawArgs) : List Byte := frame instr a.id (rawReg a) (rawPayload a)

/-- A RAW request for the instruction byte `instr`: refused by the first check that fails, else framed as given (R53). -/
def rawRequest (instr : Byte) (a : RawArgs) (b : Block) : BlockResult :=
  if rawStatus instr a = .ok then emitFrame (rawFrame instr a) b else raiseEnc (rawStatus instr a) b

/-- A decoder transaction, under the configuration `c`, whose path extracted the field `u` (R71): the length check, the sign,
the remap. -/
def decodeReply (c : Config) (u : Half) (rx : List Byte) (b : Block) : BlockResult :=
  if rx.length = replyLen then
    .next (respondDec .ok (some u) (some (remap c (rawValue c u))) b)
  else raiseDec .malformedReply b

/-- Reset of the block (R90): every output latch to its reset value, the bytes already handed to the transport as they
are. The configuration is not its to change (R17). -/
def resetBlock (b : Block) : Block :=
  { b with encStatus := .noneYet, encLen := 0, encFrame := [], decStatus := .noneYet, decRaw := none, decPos := none }

/-- The value a latch holds, or `none` for ⊥ (R16). -/
def latchValue (l : Latch) (b : Block) : Option LatchValue :=
  match l with
  | .encStatus => some (.status (statusCode b.encStatus))
  | .encLen => some (.len b.encLen)
  | .encFrame i => (b.encFrame[i.val]?).map .byte
  | .decStatus => some (.status (statusCode b.decStatus))
  | .decRaw => b.decRaw.map .raw
  | .decPos => b.decPos.map .pos

/-- A caller's read of a latch: its value is handed out; a latch holding ⊥ faults, as R16, R82, decision D21 and item I7 of
spec/93_implementation_defined.md say. -/
def readLatch (l : Latch) (b : Block) : BlockResult :=
  match latchValue l b with
  | some v => .next { b with readLog := b.readLog ++ [v] }
  | none => .fault (.latchHoldsNoValue l)

/-- R92 item 1. The 32-bit range of `SERVO_MIN` and `SERVO_MAX` and the mode parameters' values hold by their types. -/
def configValid (c : Config) : Bool :=
  decide (c.servoMin.toInt < c.servoMax.toInt) && decide (rawLo < rawHi) && decide (rxMaxLeast ≤ c.rxMax)

/-- Requests arrive, behind whatever waits already (R11). -/
def offer (rs : List Request) (b : Block) : Block := { b with inputs := b.inputs ++ rs.map .request }

end Sys2Proof.Machine
end

