-- ==== Sys2Proof/Machine/Commands.lean ====
section
/-! DEFINITION. The command multiplexer's arms (R62 to R68, R53): each selects instruction, register and payload and
drives the frame assembler. -/

namespace Sys2Proof.Machine

/-- `PING` (R63): shape S1. -/
def execPing (id : Byte) (s : State) : Result := s.onBlock fun _ => emitFrame (frame instrPing id none [])

/-- `TORQUE` (R64): one payload byte, 0 or 1, for `TORQUE_ENABLE`. -/
def execTorque (id : Byte) (on : Bool) (s : State) : Result :=
  s.onBlock fun _ => emitFrame (frame instrWrite id (some addrTorqueEnable) [if on then 1 else 0])

/-- `LIMITS` (R65): both bounds clamped independently, each little-endian, at `GOAL_POSITION_LOW`. -/
def execLimits (id : Byte) (a b : Arg) (s : State) : Result :=
  s.onBlock fun _ =>
    emitFrame (frame instrWrite id (some addrGoalPositionLow) (le16 (clamp10 a) ++ le16 (clamp10 b)))

/-- `MOVE` (R66): the clamped position, the time placeholder and the fixed speed, each big-endian (R28). -/
def execMove (id : Byte) (a : Arg) (s : State) : Result :=
  s.onBlock fun _ =>
    emitFrame (frame instrWrite id (some addrGoalPositionLow) (be16 (clamp10 a) ++ be16 moveTime ++ be16 moveSpeed))

/-- `READPOS` (R67, R68), as `READPOS_MODE` says. -/
def execReadpos (id : Byte) (s : State) : Result :=
  s.onBlock fun c =>
    match c.readposMode with
    | .emitRead => emitFrame (frame instrRead id (some addrPresentPositionLow) [readposCount])
    | .unsupported => raiseEnc .unsupported

/-- `RAW` (R53). -/
def execRaw (instr : Byte) (a : RawArgs) (s : State) : Result := s.onBlock fun _ => rawRequest instr a

/-- `cmd` 6, reserved (R62): refused before any field is read (R81). -/
def execReservedCmd6 (s : State) : Result := s.onBlock fun _ => raiseEnc .errCmd

/-- `cmd` 7, reserved (R62). -/
def execReservedCmd7 (s : State) : Result := s.onBlock fun _ => raiseEnc .errCmd

end Sys2Proof.Machine
end

