-- ==== Sys2Proof/Machine/ReplyDecoder.lean ====
section
/-! DEFINITION. The reply decoder on its two transport paths (R71 to R75). -/

namespace Sys2Proof.Machine

/-- `DECODE`, path A: the field at offsets 11 and 12 (R71, R72). -/
def execDecodeA (rx : List Byte) (s : State) : Result := s.onBlock fun c => decodeReply c (fieldA c.posOrderA rx) rx

/-- `DECODE`, path B: the field of the reversed buffer (R71, R73). -/
def execDecodeB (rx : List Byte) (s : State) : Result := s.onBlock fun c => decodeReply c (fieldB c.posOrderA rx) rx

end Sys2Proof.Machine
end

