-- ==== Sys2Proof/Machine/WireInstr.lean ====
section
/-! DEFINITION. The eight bus instructions (R54 to R61). Each is the RAW request that names its code: the block frames the
code in the shape the request selects, and gives it no other meaning. What a servo does with the frame is outside the
block (R4). -/

namespace Sys2Proof.Machine

/-- `PING_I` (R54). -/
def execPingI (a : RawArgs) (s : State) : Result := s.onBlock fun _ => rawRequest instrPing a

/-- `READ_I` (R55). -/
def execReadI (a : RawArgs) (s : State) : Result := s.onBlock fun _ => rawRequest instrRead a

/-- `WRITE_I` (R56). -/
def execWriteI (a : RawArgs) (s : State) : Result := s.onBlock fun _ => rawRequest instrWrite a

/-- `REGWRITE_I` (R57). The block gives it no deferred meaning (R33). -/
def execRegwriteI (a : RawArgs) (s : State) : Result := s.onBlock fun _ => rawRequest instrRegWrite a

/-- `ACTION_I` (R58). It orders and completes nothing (R33). -/
def execActionI (a : RawArgs) (s : State) : Result := s.onBlock fun _ => rawRequest instrAction a

/-- `RECOVER_I` (R59). -/
def execRecoverI (a : RawArgs) (s : State) : Result := s.onBlock fun _ => rawRequest instrRecover a

/-- `SYNCWRITE_I` (R60): a plain register command whose payload the caller lays out. -/
def execSyncwriteI (a : RawArgs) (s : State) : Result := s.onBlock fun _ => rawRequest instrSyncWrite a

/-- `RESET_I` (R61): a frame for a servo; it does not reset the block (R90). -/
def execResetI (a : RawArgs) (s : State) : Result := s.onBlock fun _ => rawRequest instrReset a

end Sys2Proof.Machine
end

