-- ==== Sys2Proof/Machine/Dispatch.lean ====
section
/-! DEFINITION. One arm per instruction. -/

namespace Sys2Proof.Machine

def exec (i : Instr) (s : State) : Host.Outcome State Fault Refusal :=
  match i with
  | .pingI args => Sys2Proof.Machine.execPingI args s
  | .readI args => Sys2Proof.Machine.execReadI args s
  | .writeI args => Sys2Proof.Machine.execWriteI args s
  | .regwriteI args => Sys2Proof.Machine.execRegwriteI args s
  | .actionI args => Sys2Proof.Machine.execActionI args s
  | .recoverI args => Sys2Proof.Machine.execRecoverI args s
  | .syncwriteI args => Sys2Proof.Machine.execSyncwriteI args s
  | .resetI args => Sys2Proof.Machine.execResetI args s
  | .ping id => Sys2Proof.Machine.execPing id s
  | .torque id on => Sys2Proof.Machine.execTorque id on s
  | .limits id a b => Sys2Proof.Machine.execLimits id a b s
  | .move id a => Sys2Proof.Machine.execMove id a s
  | .readpos id => Sys2Proof.Machine.execReadpos id s
  | .raw instr args => Sys2Proof.Machine.execRaw instr args s
  | .reservedCmd6 => Sys2Proof.Machine.execReservedCmd6 s
  | .reservedCmd7 => Sys2Proof.Machine.execReservedCmd7 s
  | .decodeA rx => Sys2Proof.Machine.execDecodeA rx s
  | .decodeB rx => Sys2Proof.Machine.execDecodeB rx s

end Sys2Proof.Machine
end

