-- ==== Sys2Proof/Machine/Step.lean ====
section
/-! DEFINITION. One step: one input served, atomically (R93). With none waiting the block idles, ready for the next
request at once (R91). The model is untimed (log entry 13), and nothing is fetched from a memory (log entry 14). -/

namespace Sys2Proof.Machine

/-- What an instruction does to the block under the configuration `c`. -/
def execUnder (c : Config) (i : Instr) (b : Block) : BlockResult := blockPart (exec i { toBlock := b, cfg := c })

/-- Serves the next input, under the configuration `c`. -/
def serveNext (c : Config) (b : Block) : BlockResult :=
  match b.inputs with
  | [] => .next b
  | .request r :: rest => execUnder c (decode r) { b with inputs := rest }
  | .reset _ :: rest => .next (resetBlock { b with inputs := rest })
  | .read l :: rest => readLatch l { b with inputs := rest }

/-- The block's step: the configuration is its argument, the state holds none (R17). A block whose configuration is not
valid has no step (R92). -/
def stepUnder (c : Config) (b : Block) : BlockResult :=
  if configValid c then serveNext c b else .refused .invalidConfig

/-- The step at the host's interface: the block's step under the configuration packed beside it (log entry 1). -/
def step (s : State) : Host.Outcome State Fault Refusal := s.onBlock stepUnder

/-- The machine under one configuration. Two configurations are two different blocks (R17). -/
def machineUnder (c : Config) : Host.Core where
  State := Block
  Fault := Fault
  Refusal := Refusal
  step := stepUnder c
  reset := Block.reset

/-- The state with a table word's request at the head of what waits (fixed name of the host; log entries 5 and 6). A word
that is no row of the table presents nothing. -/
def State.withFetchWord (s : State) (nbits w : Nat) : State :=
  match tableRequest nbits w with
  | some r => { s with inputs := .request r :: s.inputs }
  | none => s

end Sys2Proof.Machine
end

