-- ==== Sys2Proof/Machine/Assembler.lean ====
section
/-! DEFINITION. The assembler syntax of spec/30_encoding.md R46: one request a line, from its characters to the request
fields of R12 and R14. Every field a line does not set is left undriven (R70). -/

namespace Sys2Proof.Machine

/-- Why a line is no request. -/
inductive AsmError where
  /-- The first word is none of R46's mnemonics. -/
  | unknownMnemonic
  /-- The operands are not in the form R46 gives the mnemonic. -/
  | badOperands
  /-- A number does not fit the field it is for. -/
  | outOfRange
deriving DecidableEq, Repr

/-- A number as written (R46); `hex` says it was written `0x..`. -/
structure AsmNumber where
  value : Int
  hex : Bool
deriving DecidableEq, Repr

/-- A token of a line. -/
inductive AsmToken where
  | word (cs : List Char)
  | num (n : AsmNumber)
  | comma
  | openBracket
  | closeBracket
deriving DecidableEq, Repr

/-- The value of a decimal digit. -/
def decDigit (c : Char) : Option Nat :=
  if '0' ≤ c ∧ c ≤ '9' then some (c.toNat - '0'.toNat) else none

/-- The value of a hexadecimal digit. -/
def hexDigit (c : Char) : Option Nat :=
  if '0' ≤ c ∧ c ≤ '9' then some (c.toNat - '0'.toNat)
  else if 'a' ≤ c ∧ c ≤ 'f' then some (c.toNat - 'a'.toNat + 10)
  else if 'A' ≤ c ∧ c ≤ 'F' then some (c.toNat - 'A'.toNat + 10)
  else none

/-- Digits of a base, most significant first, onto the value so far. -/
def digitsFrom (base : Nat) (digit : Char → Option Nat) : List Char → Nat → Option Nat
  | [], n => some n
  | c :: cs, n =>
    match digit c with
    | some d => digitsFrom base digit cs (n * base + d)
    | none => none

/-- At least one digit. -/
def digits (base : Nat) (digit : Char → Option Nat) (cs : List Char) : Option Nat :=
  if cs = [] then none else digitsFrom base digit cs 0

/-- "A number is decimal, with an optional leading `-`, or hexadecimal `0x..`" (R46). -/
def asmNumber (cs : List Char) : Option AsmNumber :=
  match cs with
  | '0' :: 'x' :: ds => (digits 16 hexDigit ds).map fun n => { value := (n : Int), hex := true }
  | '-' :: ds => (digits 10 decDigit ds).map fun n => { value := -(n : Int), hex := false }
  | ds => (digits 10 decDigit ds).map fun n => { value := (n : Int), hex := false }

/-- A run of characters between separators, most recent first, as a token; an empty run is none. -/
def flushWord (run : List Char) : List AsmToken :=
  if run = [] then []
  else
    match asmNumber run.reverse with
    | some n => [.num n]
    | none => [.word run.reverse]

/-- The tokens of a line; `;` starts a comment (R46). -/
def lexLine : List Char → List Char → List AsmToken
  | [], run => flushWord run
  | c :: cs, run =>
    if c = ';' then flushWord run
    else if c = ' ' ∨ c = '\t' ∨ c = '\r' then flushWord run ++ lexLine cs []
    else if c = ',' then flushWord run ++ .comma :: lexLine cs []
    else if c = '[' then flushWord run ++ .openBracket :: lexLine cs []
    else if c = ']' then flushWord run ++ .closeBracket :: lexLine cs []
    else lexLine cs (c :: run)

/-- A number for a one-byte field. -/
def asmByte (n : AsmNumber) : Except AsmError Byte :=
  if 0 ≤ n.value ∧ n.value < 256 then .ok (BitVec.ofInt 8 n.value) else .error .outOfRange

/-- A number for a 32-bit argument: a decimal is the two's-complement value, a hexadecimal the 32 bits at the port
(log entry 8). -/
def asmArg (n : AsmNumber) : Except AsmError Arg :=
  if (n.hex = true ∧ n.value < 2 ^ 32) ∨ (-2 ^ 31 ≤ n.value ∧ n.value < 2 ^ 31) then .ok (BitVec.ofInt 32 n.value)
  else .error .outOfRange

/-- The items of a list, between its commas. -/
def splitCommas : List AsmToken → List AsmToken → List (List AsmToken)
  | [], item => [item.reverse]
  | t :: ts, item => if t = .comma then item.reverse :: splitCommas ts [] else splitCommas ts (t :: item)

/-- One item of a byte list: a byte, or `<b> x <n>` for `n` bytes `b`, as the programs of spec/95_test_vectors.md
write it. -/
def asmItem (item : List AsmToken) : Except AsmError (List Byte) :=
  match item with
  | [.num b] => (asmByte b).map fun v => [v]
  | [.num b, .word x, .num n] =>
    if x = ['x'] then
      if 0 ≤ n.value ∧ n.value < 256 then (asmByte b).map fun v => List.replicate n.value.toNat v
      else .error .outOfRange
    else .error .badOperands
  | _ => .error .badOperands

/-- The bytes of the items, in order. -/
def asmItems : List (List AsmToken) → Except AsmError (List Byte)
  | [] => .ok []
  | item :: more =>
    match asmItem item, asmItems more with
    | .ok bs, .ok rest => .ok (bs ++ rest)
    | .error e, _ => .error e
    | .ok _, .error e => .error e

/-- The bytes of a comma-separated list of at least one item. -/
def asmBytes (ts : List AsmToken) : Except AsmError (List Byte) := asmItems (splitCommas ts [])

/-- The list inside brackets: `]` ends the line. -/
def asmBracketed (ts : List AsmToken) : Except AsmError (List Byte) :=
  match ts.getLast? with
  | some .closeBracket => if ts.dropLast = [] then .ok [] else asmBytes ts.dropLast
  | _ => .error .badOperands

/-- `<instr>`: a number, or one of the names of R39. -/
def asmInstr (t : AsmToken) : Except AsmError Byte :=
  match t with
  | .num n => asmByte n
  | .word cs =>
    if cs = "Ping".toList then .ok instrPing
    else if cs = "Read".toList then .ok instrRead
    else if cs = "Write".toList then .ok instrWrite
    else if cs = "RegWrite".toList then .ok instrRegWrite
    else if cs = "Action".toList then .ok instrAction
    else if cs = "Recover".toList then .ok instrRecover
    else if cs = "SyncWrite".toList then .ok instrSyncWrite
    else if cs = "Reset".toList then .ok instrReset
    else .error .badOperands
  | .comma => .error .badOperands
  | .openBracket => .error .badOperands
  | .closeBracket => .error .badOperands

/-- `PING <id>`, `READPOS <id>` (R46). -/
def asmIdOnly (cmd : BitVec 3) (ts : List AsmToken) : Except AsmError Request :=
  match ts with
  | [.num id] => do
    let id ← asmByte id
    return .enc { EncRequest.blank with cmd := cmd, id := id }
  | _ => .error .badOperands

/-- `TORQUE <id>, <on>`, `on` 0 or 1 (R46). -/
def asmTorque (ts : List AsmToken) : Except AsmError Request :=
  match ts with
  | [.num id, .comma, .num on] => do
    let id ← asmByte id
    if on.value = 0 ∨ on.value = 1 then
      return .enc { EncRequest.blank with cmd := 1, id := id, on := decide (on.value = 1) }
    else .error .outOfRange
  | _ => .error .badOperands

/-- `LIMITS <id>, <min>, <max>` (R46). -/
def asmLimits (ts : List AsmToken) : Except AsmError Request :=
  match ts with
  | [.num id, .comma, .num lo, .comma, .num hi] => do
    let id ← asmByte id
    let lo ← asmArg lo
    let hi ← asmArg hi
    return .enc { EncRequest.blank with cmd := 2, id := id, a := lo, b := hi }
  | _ => .error .badOperands

/-- `MOVE <id>, <pos>` (R46). -/
def asmMove (ts : List AsmToken) : Except AsmError Request :=
  match ts with
  | [.num id, .comma, .num p] => do
    let id ← asmByte id
    let p ← asmArg p
    return .enc { EncRequest.blank with cmd := 3, id := id, a := p }
  | _ => .error .badOperands

/-- A RAW line with a register and payload bytes; more than 252 of them cannot be written (R46, R12). -/
def asmRawReg (instr id reg : Byte) (payload : List Byte) : Except AsmError Request :=
  if payload.length ≤ payloadMax then
    .ok (rawRequestOf instr
      { id := id, hasReg := true, reg := reg, plen := BitVec.ofNat 8 payload.length, payload := payload })
  else .error .outOfRange

/-- `RAW <instr>, <id>`, shape S1, or `RAW <instr>, <id>, <reg> [, <b0>, ...]`, shape S2 (R46). -/
def asmRaw (ts : List AsmToken) : Except AsmError Request :=
  match ts with
  | [i, .comma, .num id] => do
    let i ← asmInstr i
    let id ← asmByte id
    return rawRequestOf i { id := id, hasReg := false, reg := 0, plen := 0, payload := [] }
  | [i, .comma, .num id, .comma, .num reg] => do
    let i ← asmInstr i
    let id ← asmByte id
    let reg ← asmByte reg
    asmRawReg i id reg []
  | i :: .comma :: .num id :: .comma :: .num reg :: .comma :: bytes => do
    let i ← asmInstr i
    let id ← asmByte id
    let reg ← asmByte reg
    let payload ← asmBytes bytes
    asmRawReg i id reg payload
  | _ => .error .badOperands

/-- `DECODE A|B, [<b0>, <b1>, ...]` (R46): path 0 or 1, `rxlen` the number of bytes given. -/
def asmDecode (ts : List AsmToken) : Except AsmError Request :=
  match ts with
  | .word p :: .comma :: .openBracket :: more => do
    let rx ← asmBracketed more
    if 255 < rx.length then .error .outOfRange
    else if p = ['A'] then return replyRequestOf 0 rx
    else if p = ['B'] then return replyRequestOf 1 rx
    else .error .badOperands
  | _ => .error .badOperands

/-- One line's tokens to its request (R46). -/
def asmTokens (ts : List AsmToken) : Except AsmError Request :=
  match ts with
  | .word m :: rest =>
    if m = "PING".toList then asmIdOnly 0 rest
    else if m = "TORQUE".toList then asmTorque rest
    else if m = "LIMITS".toList then asmLimits rest
    else if m = "MOVE".toList then asmMove rest
    else if m = "READPOS".toList then asmIdOnly 4 rest
    else if m = "RAW".toList then asmRaw rest
    else if m = "DECODE".toList then asmDecode rest
    else .error .unknownMnemonic
  | _ => .error .unknownMnemonic

/-- The request a line writes. -/
def assembleLine (line : List Char) : Except AsmError Request := asmTokens (lexLine line [])

/-- The lines of a text. -/
def linesOf : List Char → List Char → List (List Char)
  | [], line => [line.reverse]
  | c :: cs, line => if c = '\n' then line.reverse :: linesOf cs [] else linesOf cs (c :: line)

/-- The requests of the lines, in order; a line of blanks or comment alone writes none. -/
def assembleLines : List (List Char) → Except AsmError (List Request)
  | [] => .ok []
  | line :: more =>
    if lexLine line [] = [] then assembleLines more
    else do
      let r ← assembleLine line
      let rs ← assembleLines more
      return r :: rs

/-- The program a text writes: its requests in issue order (R11, R46). -/
def assemble (text : List Char) : Except AsmError (List Request) := assembleLines (linesOf text [])

end Sys2Proof.Machine
end

