-- ==== Sys2Proof/Safety.lean ====
section
/-! DEFINITION. What a state of this block means: the encoder and decoder latches agree among themselves (R13, R16, R80)
and the TX stream is whole frames, one after another (R32). -/

namespace Sys2Proof.Machine

/-- A byte stream made of whole frames, none split and nothing between them (R32). -/
def IsFrameStream (stream : List Byte) : Prop :=
  ∃ frames : List (List Byte), (∀ f ∈ frames, isFrame f = true) ∧ stream = frames.flatten

/-- The instructions of the encoder port; the others are the decoder's (R12, R14). -/
def isEncoderInstr : Instr → Bool
  | .pingI _ => true
  | .readI _ => true
  | .writeI _ => true
  | .regwriteI _ => true
  | .actionI _ => true
  | .recoverI _ => true
  | .syncwriteI _ => true
  | .resetI _ => true
  | .ping _ => true
  | .torque _ _ => true
  | .limits _ _ _ => true
  | .move _ _ => true
  | .readpos _ => true
  | .raw _ _ => true
  | .reservedCmd6 => true
  | .reservedCmd7 => true
  | .decodeA _ => false
  | .decodeB _ => false

/-- The block's invariant. -/
structure Inv (s : State) : Prop where
  /-- `ENC_LEN` counts the bytes of `ENC_FRAME` that hold a value (R16). -/
  encLen_counts : s.encLen.toNat = s.encFrame.length
  /-- With `OK`, the latch holds one whole frame (R13, R35). -/
  encFrame_of_ok : s.encStatus = .ok → isFrame s.encFrame = true
  /-- With any other status, every byte is ⊥ (R80). -/
  encFrame_of_not_ok : s.encStatus ≠ .ok → s.encFrame = []
  /-- The encoder never reports the decoder's status (R13). -/
  encStatus_legal : s.encStatus ≠ .malformedReply
  /-- The decoder reports `OK` or `MALFORMED_REPLY`, or nothing yet (R15, R16). -/
  decStatus_legal : s.decStatus = .ok ∨ s.decStatus = .malformedReply ∨ s.decStatus = .noneYet
  /-- With `OK`, `DEC_RAW` and `DEC_POS` hold values, the second the remap of the first (R71). -/
  decValues_of_ok : s.decStatus = .ok →
    ∃ u, s.decRaw = some u ∧ s.decPos = some (remap s.cfg (rawValue s.cfg u))
  /-- With any other status, both are ⊥ (R80). -/
  decValues_of_not_ok : s.decStatus ≠ .ok → s.decRaw = none ∧ s.decPos = none
  /-- The TX stream is whole frames (R32). -/
  tx_frames : IsFrameStream s.tx

/-- The state after an encoder transaction that ends `OK` with the frame `f` (R9, R16, R18): the three encoder latches
written, the frame appended to `TX`, everything else as before. -/
def afterFrame (f : List Byte) (s : State) : State where
  cfg := s.cfg
  encStatus := .ok
  encLen := BitVec.ofNat 9 f.length
  encFrame := f
  decStatus := s.decStatus
  decRaw := s.decRaw
  decPos := s.decPos
  tx := s.tx ++ f
  inputs := s.inputs
  readLog := s.readLog

/-- The state after an encoder transaction refused with `st` (R80): `ENC_LEN` 0, every frame byte ⊥, `TX` and the rest as
before. -/
def afterRefusal (st : Status) (s : State) : State where
  cfg := s.cfg
  encStatus := st
  encLen := 0
  encFrame := []
  decStatus := s.decStatus
  decRaw := s.decRaw
  decPos := s.decPos
  tx := s.tx
  inputs := s.inputs
  readLog := s.readLog

/-- The state after a decoder transaction (R9, R16): the three decoder latches written, the rest as before. -/
def afterReply (st : Status) (raw : Option Half) (pos : Option Arg) (s : State) : State where
  cfg := s.cfg
  encStatus := s.encStatus
  encLen := s.encLen
  encFrame := s.encFrame
  decStatus := st
  decRaw := raw
  decPos := pos
  tx := s.tx
  inputs := s.inputs
  readLog := s.readLog

/-- The state after a reset (R90): every output latch at its reset value (R16), the rest as before. -/
def afterReset (s : State) : State where
  cfg := s.cfg
  encStatus := .noneYet
  encLen := 0
  encFrame := []
  decStatus := .noneYet
  decRaw := none
  decPos := none
  tx := s.tx
  inputs := s.inputs
  readLog := s.readLog

/-- The latch holds ⊥ (R16). The statuses and `ENC_LEN` always hold a value. -/
def HoldsBottom (l : Latch) (s : State) : Prop :=
  match l with
  | .encStatus => False
  | .encLen => False
  | .encFrame i => s.encFrame.length ≤ i.val
  | .decStatus => False
  | .decRaw => s.decRaw = none
  | .decPos => s.decPos = none

/-- The frames a step from `s` to `t` hands to the transport: the one its encoder transaction latched with `OK`, if the
input it served is such a transaction (R18). -/
def framesOfStep (s t : State) : List (List Byte) :=
  match s.inputs with
  | [] => []
  | .request r :: _ => if isEncoderInstr (decode r) = true ∧ t.encStatus = .ok then [t.encFrame] else []
  | .reset _ :: _ => []
  | .read _ :: _ => []

/-- The frames of the steps of a run, in step order. -/
def framesOfRun : Nat → State → List (List Byte)
  | 0, _ => []
  | n + 1, s =>
    match step s with
    | .next t => framesOfStep s t ++ framesOfRun n t
    | .fault _ => []
    | .refused _ => []

/-- The eight bus instructions with their codes (R39). -/
def busInstrs : List ((RawArgs → Instr) × Byte) :=
  [(.pingI, 0x01), (.readI, 0x02), (.writeI, 0x03), (.regwriteI, 0x04),
   (.actionI, 0x05), (.recoverI, 0x06), (.syncwriteI, 0x83), (.resetI, 0x0A)]

/-- The request operands a RAW request is accepted with: no payload without a register (R53), at most 252 bytes (R38), the
bytes given being the `plen` declared (R12). -/
def RawAccepted (a : RawArgs) : Prop :=
  a.payload.length = a.plen.toNat ∧ a.plen.toNat ≤ 252 ∧ (a.hasReg = false → a.plen = 0)

end Sys2Proof.Machine
end

