-- ==== Sys2Proof/Certificates/Slice0/Obligations.lean ====
section
/-! DEFINITION. The statements for the provers, from the numbered rules of spec/. -/

open Sys2Proof Sys2Proof.Machine

/-! ### Encodings -/

/-- R39, R41, R42: every well-formed instruction is the one its request selects, with every operand. -/
def Obligations.DecodeOfEncodeIsIdentity : Prop :=
  ∀ i : Instr, i.wf = true → decode (encode i) = i

/-- R41, R42, R39: requests written out from the spec's field values select the rows they stand for. R41 gives `cmd` 5 the one
row RAW: that it selects `SYNCWRITE_I` with the legal code 0x83 and stays RAW with the illegal 0x07 is the model's DESIGN
CHOICE (log entry 4). -/
def Obligations.PortWordsSelectTheirRows : Prop :=
  decode (.enc { EncRequest.blank with cmd := 0, id := 1 }) = .ping 1 ∧
  decode (.enc { EncRequest.blank with cmd := 1, id := 1, on := true }) = .torque 1 true ∧
  decode (.enc { EncRequest.blank with cmd := 2, id := 1, a := 2000, b := -5 }) = .limits 1 2000 (-5) ∧
  decode (.enc { EncRequest.blank with cmd := 3, id := 1, a := 600 }) = .move 1 600 ∧
  decode (.enc { EncRequest.blank with cmd := 4, id := 1 }) = .readpos 1 ∧
  decode (.enc { EncRequest.blank with cmd := 5, id := 1, instr := 0x07 }) = .raw 0x07 ⟨1, false, 0, 0, []⟩ ∧
  decode (.enc { EncRequest.blank with cmd := 5, id := 1, instr := 0x83 }) = .syncwriteI ⟨1, false, 0, 0, []⟩ ∧
  decode (.enc { EncRequest.blank with cmd := 6, id := 1 }) = .reservedCmd6 ∧
  decode (.enc { EncRequest.blank with cmd := 7 }) = .reservedCmd7 ∧
  decode (.dec { path := 0, rxlen := 2, rx := padTo 255 [0xF4, 0x01, 0x99] }) = .decodeA [0xF4, 0x01] ∧
  decode (.dec { path := 1, rxlen := 2, rx := padTo 255 [0xF4, 0x01, 0x99] }) = .decodeB [0xF4, 0x01]

/-- R12, R14, R41, R42: the decoder is total, and whatever stands at a port it yields a well-formed instruction. -/
def Obligations.EveryRequestDecodesWellFormed : Prop :=
  ∀ r : Request, (decode r).wf = true

/-- A field the selected command does not list has no effect on what the request does. This is R70, which the spec itself
derives from R63 to R68 and R53. For READPOS in `UNSUPPORTED` mode even `id` is not used (R68), and RAW reads the first
`plen` payload bytes only (R12, R53). -/
def Obligations.UnlistedFieldsAreIgnored : Prop :=
  ∀ (r r' : EncRequest) (s : State), r.cmd = r'.cmd →
    ((r.cmd = 0 ∧ r.id = r'.id) ∨
     (r.cmd = 1 ∧ r.id = r'.id ∧ r.on = r'.on) ∨
     (r.cmd = 2 ∧ r.id = r'.id ∧ r.a = r'.a ∧ r.b = r'.b) ∨
     (r.cmd = 3 ∧ r.id = r'.id ∧ r.a = r'.a) ∨
     (r.cmd = 4 ∧ (r.id = r'.id ∨ s.cfg.readposMode = .unsupported)) ∨
     (r.cmd = 5 ∧ r.id = r'.id ∧ r.instr = r'.instr ∧ r.hasReg = r'.hasReg ∧ r.reg = r'.reg ∧ r.plen = r'.plen ∧
       r.payload.toList.take r.plen.toNat = r'.payload.toList.take r.plen.toNat) ∨
     r.cmd = 6 ∨ r.cmd = 7) →
    exec (decode (.enc r)) s = exec (decode (.enc r')) s

/-- R35 to R38, R49: the frame the assembler builds with its 16-bit checksum is, byte for byte, the layout written with
the mod-256 form of the checksum. -/
def Obligations.AssemblerWritesTheWireLayout : Prop :=
  ∀ (instr : Byte) (a : RawArgs), RawAccepted a → rawFrame instr a = encodeFrame instr a

/-- The frame of a bus instruction, laid out by R35 to R39, reads back as that instruction, every operand of its shape kept.
The reader is the model's own: the block never parses a frame (R45; log entry 14). That the register of a shape S1
frame, which has none, reads as 0 is the model's DESIGN CHOICE (log entry 14). -/
def Obligations.FrameReadsBackAsItsInstruction : Prop :=
  ∀ p ∈ busInstrs, ∀ a : RawArgs, RawAccepted a →
    decodeFrame (encodeFrame p.2 a) = .ok (p.1 { a with reg := if a.hasReg then a.reg else 0 })

/-- R35 to R40: bytes that read as a frame are the frame of the one bus instruction read, so no two readings share bytes
and no reserved code is read as a neighbour. -/
def Obligations.AcceptedFrameHasOneReading : Prop :=
  ∀ (bytes : List Byte) (i : Instr), decodeFrame bytes = .ok i →
    ∃ p ∈ busInstrs, ∃ a : RawArgs, RawAccepted a ∧ i = p.1 a ∧ encodeFrame p.2 a = bytes

/-- R45: the frame length is read from the frame itself, so a receiver of the stream finds its end exactly. -/
def Obligations.FrameEndIsReadFromTheFrame : Prop :=
  ∀ f rest : List Byte, isFrame f = true → splitFrame (f ++ rest) = some (f, rest)

/-- R46, with the requests of spec/95_test_vectors.md P1, P2, P4 and P5. Three things are the model's: the RAW lines of
RegWrite and Action decode to `regwriteI` and `actionI` (log entry 4), the register their request leaves undriven in
shape S1 is drawn as 0 (log entry 10), and `0x00 x 11` is read as eleven bytes (log entry 8). -/
def Obligations.ProgramLinesWriteTheirRequests : Prop :=
  (assembleLine "TORQUE  1, 1       ; cmd=1, id=1, on=1".toList).map decode = .ok (.torque 1 true) ∧
  (assembleLine "LIMITS  1, 2000, -5".toList).map decode = .ok (.limits 1 2000 (-5)) ∧
  (assembleLine "READPOS 1".toList).map decode = .ok (.readpos 1) ∧
  (assembleLine "RAW RegWrite, 2, 42, 0x01, 0xF4".toList).map decode =
    .ok (.regwriteI ⟨2, true, 42, 2, [0x01, 0xF4]⟩) ∧
  (assembleLine "RAW Action, 0xFE".toList).map decode = .ok (.actionI ⟨0xFE, false, 0, 0, []⟩) ∧
  (assembleLine "DECODE B, [0x00 x 11, 0x01, 0xF4, 0x00]".toList).map decode =
    .ok (.decodeB [0, 0, 0, 0, 0, 0, 0, 0, 0, 0, 0, 0x01, 0xF4, 0])

/-! ### Checksum and frame assembler -/

/-- R48, R49: the checksum byte is 255 less the sum of the bytes mod 256, for any sequence. -/
def Obligations.ChecksumComplementsTheSum : Prop :=
  ∀ s : List Byte, (checksum s).toNat = 255 - (s.map (·.toNat)).sum % 256

/-- R50: over at most 256 bytes the 16-bit accumulator holds the exact sum, so it never wraps in a frame. -/
def Obligations.AccumulatorHoldsTheExactSum : Prop :=
  ∀ s : List Byte, s.length ≤ 256 → (checksumAcc s).toNat = (s.map (·.toNat)).sum

/-- R51: in every frame an encoder instruction emits, the bytes from `id` on, checksum included, sum to 0xFF mod 256. -/
def Obligations.EmittedFrameSumsToAllOnes : Prop :=
  ∀ (i : Instr) (s t : State), isEncoderInstr i = true → exec i s = .next t → t.encStatus = .ok →
    ((t.encFrame.drop 2).map (·.toNat)).sum % 256 = 255

/-- R13: every encoder transaction completes with one of the encoder's statuses; `flen` is 0 exactly when the status is
not `OK`, else it is 6 to 259, the number of frame bytes, and `frame[3] + 4`. -/
def Obligations.EncoderAnswersAWellShapedResponse : Prop :=
  ∀ (i : Instr) (s : State), isEncoderInstr i = true → ∃ t, exec i s = .next t ∧
    (t.encStatus = .ok ∨ t.encStatus = .unsupported ∨ t.encStatus = .errCmd ∨ t.encStatus = .errInstr ∨
      t.encStatus = .errShape ∨ t.encStatus = .errMsglen) ∧
    (t.encLen = 0 ↔ t.encStatus ≠ .ok) ∧
    t.encFrame.length = t.encLen.toNat ∧
    (t.encStatus = .ok → 6 ≤ t.encLen.toNat ∧ t.encLen.toNat ≤ 259 ∧
      t.encLen.toNat = (t.encFrame.getD 3 0).toNat + 4)

/-! ### Bus instructions and RAW -/

/-- R36, R54 to R61: each bus instruction without a register is framed in shape S1 with its own code, for every id. -/
def Obligations.BusInstructionsFrameShapeS1 : Prop :=
  ∀ p ∈ busInstrs, ∀ (a : RawArgs) (s : State), a.hasReg = false → a.plen = 0 →
    exec (p.1 a) s = .next (afterFrame [0xFF, 0xFF, a.id, 0x02, p.2, ~~~(a.id + 2 + p.2)] s)

/-- R37, R54 to R61: each bus instruction with a register is framed in shape S2, for every id and register and every
payload of 0 to 252 bytes, sent as given. -/
def Obligations.BusInstructionsFrameShapeS2 : Prop :=
  ∀ p ∈ busInstrs, ∀ (a : RawArgs) (s : State),
    a.hasReg = true → a.plen.toNat ≤ 252 → a.payload.length = a.plen.toNat →
    exec (p.1 a) s = .next (afterFrame
      ([0xFF, 0xFF, a.id, 3 + a.plen, p.2, a.reg] ++ a.payload ++
        [~~~(a.id + (3 + a.plen) + p.2 + a.reg + a.payload.sum)]) s)

/-- R53, R81: a bus instruction with a payload and no register is refused `ERR_SHAPE`; one with more than 252 payload bytes
is refused `ERR_MSGLEN`; shape is checked before length. -/
def Obligations.BusInstructionsRefuseBadShapes : Prop :=
  ∀ p ∈ busInstrs, ∀ (a : RawArgs) (s : State),
    (a.hasReg = false → a.plen ≠ 0 → exec (p.1 a) s = .next (afterRefusal .errShape s)) ∧
    (a.hasReg = true → 252 < a.plen.toNat → exec (p.1 a) s = .next (afterRefusal .errMsglen s))

/-- R53: RAW in full. The checks in their order, each refusal with no frame, and the frame of either shape. -/
def Obligations.RawChecksThenFrames : Prop :=
  ∀ (instr : Byte) (a : RawArgs) (s : State),
    (instr ∉ [0x01, 0x02, 0x03, 0x04, 0x05, 0x06, 0x83, 0x0A] →
      exec (.raw instr a) s = .next (afterRefusal .errInstr s)) ∧
    (instr ∈ [0x01, 0x02, 0x03, 0x04, 0x05, 0x06, 0x83, 0x0A] →
      (a.hasReg = false → a.plen ≠ 0 → exec (.raw instr a) s = .next (afterRefusal .errShape s)) ∧
      (a.hasReg = false → a.plen = 0 →
        exec (.raw instr a) s = .next (afterFrame [0xFF, 0xFF, a.id, 0x02, instr, ~~~(a.id + 2 + instr)] s)) ∧
      (a.hasReg = true → 252 < a.plen.toNat → exec (.raw instr a) s = .next (afterRefusal .errMsglen s)) ∧
      (a.hasReg = true → a.plen.toNat ≤ 252 → a.payload.length = a.plen.toNat →
        exec (.raw instr a) s = .next (afterFrame
          ([0xFF, 0xFF, a.id, 3 + a.plen, instr, a.reg] ++ a.payload ++
            [~~~(a.id + (3 + a.plen) + instr + a.reg + a.payload.sum)]) s)))

/-! ### Commands -/

/-- R63. -/
def Obligations.PingFramesEveryId : Prop :=
  ∀ (id : Byte) (s : State),
    exec (.ping id) s = .next (afterFrame [0xFF, 0xFF, id, 0x02, 0x01, ~~~(id + 3)] s)

/-- R64. -/
def Obligations.TorqueWritesTorqueEnable : Prop :=
  ∀ (id : Byte) (on : Bool) (s : State),
    exec (.torque id on) s = .next (afterFrame
      [0xFF, 0xFF, id, 0x04, 0x03, 0x28, if on then 1 else 0, ~~~(id + 4 + 3 + 40 + (if on then 1 else 0))] s)

/-- R65: both bounds clamped independently, neither compared nor swapped, each low byte first. -/
def Obligations.LimitsPacksBoundsLowByteFirst : Prop :=
  ∀ (id : Byte) (a b : Arg) (s : State) (lo hi : Int),
    lo = max 0 (min a.toInt 1023) → hi = max 0 (min b.toInt 1023) →
    exec (.limits id a b) s = .next (afterFrame
      [0xFF, 0xFF, id, 0x07, 0x03, 0x2A, BitVec.ofInt 8 (lo % 256), BitVec.ofInt 8 (lo / 256),
       BitVec.ofInt 8 (hi % 256), BitVec.ofInt 8 (hi / 256),
       ~~~(id + 7 + 3 + 42 + BitVec.ofInt 8 (lo % 256) + BitVec.ofInt 8 (lo / 256) + BitVec.ofInt 8 (hi % 256) +
         BitVec.ofInt 8 (hi / 256))] s)

/-- R66: the position clamped, high byte first, then the constant time and speed bytes. -/
def Obligations.MovePacksPositionHighByteFirst : Prop :=
  ∀ (id : Byte) (a : Arg) (s : State) (p : Int), p = max 0 (min a.toInt 1023) →
    exec (.move id a) s = .next (afterFrame
      [0xFF, 0xFF, id, 0x09, 0x03, 0x2A, BitVec.ofInt 8 (p / 256), BitVec.ofInt 8 (p % 256), 0x00, 0x00, 0x03, 0xE8,
       ~~~(id + 9 + 3 + 42 + BitVec.ofInt 8 (p / 256) + BitVec.ofInt 8 (p % 256) + 3 + 0xE8)] s)

/-- R67. -/
def Obligations.ReadposEmitsAReadOfTwoBytes : Prop :=
  ∀ (id : Byte) (s : State), s.cfg.readposMode = .emitRead →
    exec (.readpos id) s = .next (afterFrame [0xFF, 0xFF, id, 0x04, 0x02, 0x38, 0x02, ~~~(id + 64)] s)

/-- R68. -/
def Obligations.ReadposReportsUnsupported : Prop :=
  ∀ (id : Byte) (s : State), s.cfg.readposMode = .unsupported →
    exec (.readpos id) s = .next (afterRefusal .unsupported s)

/-- R62, R41: both reserved values of `cmd` answer `ERR_CMD` with no frame. -/
def Obligations.ReservedCommandsAnswerErrCmd : Prop :=
  ∀ s : State,
    exec .reservedCmd6 s = .next (afterRefusal .errCmd s) ∧ exec .reservedCmd7 s = .next (afterRefusal .errCmd s)

/-- R69: an argument outside [0,1023] acts exactly as the nearest bound, and the answer is `OK`. -/
def Obligations.ClampSaturatesAndNeverFails : Prop :=
  ∀ (id : Byte) (a a' b b' : Arg) (s : State),
    a'.toInt = max 0 (min a.toInt 1023) → b'.toInt = max 0 (min b.toInt 1023) →
    exec (.move id a) s = exec (.move id a') s ∧ exec (.limits id a b) s = exec (.limits id a' b') s ∧
    (∃ t, exec (.move id a) s = .next t ∧ t.encStatus = .ok) ∧
    (∃ t, exec (.limits id a b) s = .next t ∧ t.encStatus = .ok)

/-- R47: each high-level command is a RAW request with its arguments clamped and packed. Said twice: of the instruction RAW
with that code, and of what the RAW request with that code decodes to (the code's own row, log entry 4). -/
def Obligations.CommandsAreRawRequests : Prop :=
  ∀ (id : Byte) (on : Bool) (a b : Arg) (s : State) (torqueArgs limitsArgs moveArgs : RawArgs),
    torqueArgs = ⟨id, true, 40, 1, [if on then 1 else 0]⟩ →
    limitsArgs = ⟨id, true, 42, 4, le16 (clamp10 a) ++ le16 (clamp10 b)⟩ →
    moveArgs = ⟨id, true, 42, 6, be16 (clamp10 a) ++ [0x00, 0x00, 0x03, 0xE8]⟩ →
    exec (.ping id) s = exec (.raw 0x01 ⟨id, false, 0, 0, []⟩) s ∧
    exec (.ping id) s = exec (decode (rawRequestOf 0x01 ⟨id, false, 0, 0, []⟩)) s ∧
    exec (.torque id on) s = exec (.raw 0x03 torqueArgs) s ∧
    exec (.torque id on) s = exec (decode (rawRequestOf 0x03 torqueArgs)) s ∧
    exec (.limits id a b) s = exec (.raw 0x03 limitsArgs) s ∧
    exec (.limits id a b) s = exec (decode (rawRequestOf 0x03 limitsArgs)) s ∧
    exec (.move id a) s = exec (.raw 0x03 moveArgs) s ∧
    exec (.move id a) s = exec (decode (rawRequestOf 0x03 moveArgs)) s ∧
    (s.cfg.readposMode = .emitRead →
      exec (.readpos id) s = exec (.raw 0x02 ⟨id, true, 56, 1, [2]⟩) s ∧
      exec (.readpos id) s = exec (decode (rawRequestOf 0x02 ⟨id, true, 56, 1, [2]⟩)) s)

/-- R23, R24, R28: the control-table cells MOVE's payload is meant for: the high byte of the position at
`GOAL_POSITION_LOW` (42), the low byte at 43, time at 44 and 45, speed high byte first at 46 and 47. -/
def Obligations.MovePutsHighByteAtGoalPositionLow : Prop :=
  ∀ (id : Byte) (a : Arg) (s t : State), exec (.move id a) s = .next t →
    cellsMeant (t.encFrame.getD 5 0) ((t.encFrame.drop 6).dropLast) =
      [(42, highByte (clamp10 a)), (43, lowByte (clamp10 a)), (44, 0), (45, 0), (46, 0x03), (47, 0xE8)]

/-! ### Reply decoder -/

/-- R71, R72, R74, R75: DECODE on path A. A reply of any other length than 14 is malformed; else the field is bytes 11 and 12
in `POS_ORDER_A` order, read with the configured sign, clamped to 0..1000 and mapped onto the logical scale. -/
def Obligations.DecodeAReadsBytesElevenAndTwelve : Prop :=
  ∀ (rx : List Byte) (s : State),
    (rx.length ≠ 14 → exec (.decodeA rx) s = .next (afterReply .malformedReply none none s)) ∧
    (rx.length = 14 → ∀ (x : Nat) (v : Int),
      x = (match s.cfg.posOrderA with
        | .le => (rx.getD 11 0).toNat + 256 * (rx.getD 12 0).toNat
        | .be => 256 * (rx.getD 11 0).toNat + (rx.getD 12 0).toNat) →
      v = (if s.cfg.rawSigned = true ∧ 32768 ≤ x then (x : Int) - 65536 else (x : Int)) →
      exec (.decodeA rx) s = .next (afterReply .ok (some (BitVec.ofNat 16 x))
        (some (BitVec.ofInt 32 (s.cfg.servoMin.toInt +
          max 0 (min v 1000) * (s.cfg.servoMax.toInt - s.cfg.servoMin.toInt) / 1000))) s))

/-- R71, R73, R74, R75: DECODE on path B reads the same two bytes in the opposite order. -/
def Obligations.DecodeBReadsThemInTheOtherOrder : Prop :=
  ∀ (rx : List Byte) (s : State),
    (rx.length ≠ 14 → exec (.decodeB rx) s = .next (afterReply .malformedReply none none s)) ∧
    (rx.length = 14 → ∀ (x : Nat) (v : Int),
      x = (match s.cfg.posOrderA with
        | .le => 256 * (rx.getD 11 0).toNat + (rx.getD 12 0).toNat
        | .be => (rx.getD 11 0).toNat + 256 * (rx.getD 12 0).toNat) →
      v = (if s.cfg.rawSigned = true ∧ 32768 ≤ x then (x : Int) - 65536 else (x : Int)) →
      exec (.decodeB rx) s = .next (afterReply .ok (some (BitVec.ofNat 16 x))
        (some (BitVec.ofInt 32 (s.cfg.servoMin.toInt +
          max 0 (min v 1000) * (s.cfg.servoMax.toInt - s.cfg.servoMin.toInt) / 1000))) s))

/-- R73: path B's field is the byte swap of path A's, and the two agree only when the bytes are equal. -/
def Obligations.PathsSwapTheFieldBytes : Prop :=
  ∀ (order : ByteOrder) (rx : List Byte), rx.length = 14 →
    lowByte (fieldB order rx) = highByte (fieldA order rx) ∧
    highByte (fieldB order rx) = lowByte (fieldA order rx) ∧
    (fieldA order rx = fieldB order rx ↔ rx.getD 11 0 = rx.getD 12 0)

/-- R76: any 14-byte reply decodes with `OK`, and only its bytes 11 and 12 have an effect. -/
def Obligations.DecoderChecksNothingButTheLength : Prop :=
  ∀ (rx rx' : List Byte) (s : State), rx.length = 14 → rx'.length = 14 →
    rx.getD 11 0 = rx'.getD 11 0 → rx.getD 12 0 = rx'.getD 12 0 →
    exec (.decodeA rx) s = exec (.decodeA rx') s ∧ exec (.decodeB rx) s = exec (.decodeB rx') s ∧
    (∃ t, exec (.decodeA rx) s = .next t ∧ t.decStatus = .ok) ∧
    (∃ t, exec (.decodeB rx) s = .next t ∧ t.decStatus = .ok)

/-- R75: on a valid configuration the position lies in [SERVO_MIN, SERVO_MAX], and a larger reading never gives a smaller
position. -/
def Obligations.RemapStaysOnTheScale : Prop :=
  ∀ (c : Config) (v w : Int), configValid c = true → v ≤ w →
    c.servoMin.toInt ≤ (remap c v).toInt ∧ (remap c v).toInt ≤ (remap c w).toInt ∧
    (remap c w).toInt ≤ c.servoMax.toInt

/-- R75: the ends and the middle of the scale. -/
def Obligations.RemapAnchorsEndsAndMidpoint : Prop :=
  ∀ (c : Config) (v : Int), configValid c = true →
    (v ≤ 0 → remap c v = c.servoMin) ∧ (1000 ≤ v → remap c v = c.servoMax) ∧
    (v = 500 → (remap c v).toInt = c.servoMin.toInt + (c.servoMax.toInt - c.servoMin.toInt) / 2)

/-- R74: the two readings of the field differ only from 0x8000 on, where the signed one remaps to `SERVO_MIN` and the
unsigned one to `SERVO_MAX`. -/
def Obligations.SignMattersFromTheTopBitOnly : Prop :=
  ∀ (c : Config) (u : Half), configValid c = true →
    (u.toNat < 0x8000 → rawValue { c with rawSigned := true } u = rawValue { c with rawSigned := false } u) ∧
    (0x8000 ≤ u.toNat →
      rawValue { c with rawSigned := true } u = (u.toNat : Int) - 65536 ∧
      remap c (rawValue { c with rawSigned := true } u) = c.servoMin ∧
      remap c (rawValue { c with rawSigned := false } u) = c.servoMax)

/-! ### Frames, purity, independence -/

/-- R20: an encoder transaction changes no decoder latch. It changes no configuration, no waiting input and no latch read
record either, and `TX` grows by exactly the frame it latched (by nothing when it latched none). -/
def Obligations.EncoderLeavesTheDecoderAlone : Prop :=
  ∀ (i : Instr) (s t : State), isEncoderInstr i = true → exec i s = .next t →
    t.decStatus = s.decStatus ∧ t.decRaw = s.decRaw ∧ t.decPos = s.decPos ∧
    t.cfg = s.cfg ∧ t.inputs = s.inputs ∧ t.readLog = s.readLog ∧
    t.tx = s.tx ++ t.encFrame

/-- R20: a decoder transaction changes no encoder latch and transmits nothing. -/
def Obligations.DecoderLeavesTheEncoderAlone : Prop :=
  ∀ (i : Instr) (s t : State), isEncoderInstr i = false → exec i s = .next t →
    t.encStatus = s.encStatus ∧ t.encLen = s.encLen ∧ t.encFrame = s.encFrame ∧ t.tx = s.tx ∧
    t.cfg = s.cfg ∧ t.inputs = s.inputs ∧ t.readLog = s.readLog

/-- R80: a transaction with a status other than `OK` changes nothing but its own unit's latches, which hold no value. -/
def Obligations.FailedTransactionChangesOnlyItsLatches : Prop :=
  ∀ (i : Instr) (s t : State), exec i s = .next t →
    (isEncoderInstr i = true → t.encStatus ≠ .ok → t = afterRefusal t.encStatus s) ∧
    (isEncoderInstr i = false → t.decStatus ≠ .ok → t = afterReply t.decStatus none none s)

/-- R19: what a transaction answers is a function of its request and the configuration. From any two states with one
configuration an encoder instruction leaves the same latches and transmits the same bytes, a decoder instruction leaves
the same latches. -/
def Obligations.ResponsesDependOnRequestAndConfigurationOnly : Prop :=
  ∀ (i : Instr) (s s' : State), s.cfg = s'.cfg → ∃ t t', exec i s = .next t ∧ exec i s' = .next t' ∧
    (isEncoderInstr i = true →
      t.encStatus = t'.encStatus ∧ t.encLen = t'.encLen ∧ t.encFrame = t'.encFrame ∧
      ∃ f, t.tx = s.tx ++ f ∧ t'.tx = s'.tx ++ f) ∧
    (isEncoderInstr i = false →
      t.decStatus = t'.decStatus ∧ t.decRaw = t'.decRaw ∧ t.decPos = t'.decPos)

/-- R88, R20: an encoder and a decoder transaction that arrive together leave the same state in either order. -/
def Obligations.EncoderAndDecoderCommute : Prop :=
  ∀ (i j : Instr) (s : State), isEncoderInstr i = true → isEncoderInstr j = false →
    ∃ t u v, exec i s = .next t ∧ exec j t = .next v ∧ exec j s = .next u ∧ exec i u = .next v

/-! ### The step -/

/-- R11, R62, R93: with a request at the head, a step of a validly configured block takes it off the list and is exec of the
instruction it selects. -/
def Obligations.StepRunsTheDecodedRequest : Prop :=
  ∀ (s : State) (r : Request) (rest : List Input), configValid s.cfg = true → s.inputs = .request r :: rest →
    step s = exec (decode r) { s with inputs := rest }

/-- With nothing waiting a step answers the same state. That there is such an idle step is the model's DESIGN CHOICE (log
entry 6): R91 says only that the block accepts a request at once. That it changes nothing agrees with R16 and R18, by which
only a transaction writes a latch or `TX`. -/
def Obligations.StepIdlesWithNothingWaiting : Prop :=
  ∀ s : State, configValid s.cfg = true → s.inputs = [] → step s = .next s

/-- R92: a configuration that breaks item 1 has no step, and no other is refused one. -/
def Obligations.InvalidConfigurationHasNoStep : Prop :=
  ∀ s : State, (∃ r, step s = .refused r) ↔
    ¬(s.cfg.servoMin.toInt < s.cfg.servoMax.toInt ∧ (15 : Nat) ≤ s.cfg.rxMax)

/-- R90: reset puts every output latch to its reset value, whatever transaction was in progress, and leaves the
configuration and the bytes already transmitted. -/
def Obligations.ResetClearsTheLatchesOnly : Prop :=
  ∀ (s : State) (inFlight : Option Request) (rest : List Input), configValid s.cfg = true →
    s.inputs = .reset inFlight :: rest →
    ∃ t, step s = .next t ∧
      t.encStatus = .noneYet ∧ t.encLen = 0 ∧ t.encFrame = [] ∧ t.decStatus = .noneYet ∧ t.decRaw = none ∧
      t.decPos = none ∧ t.cfg = s.cfg ∧ t.tx = s.tx ∧ t.inputs = rest ∧ t.readLog = s.readLog

/-- R16, R18, R90: the latches and the TX stream at system start. -/
def Obligations.SystemStartsEmpty : Prop :=
  statusCode State.reset.encStatus = 7 ∧ State.reset.encLen = 0 ∧
  (∀ i : Fin 259, latchValue (.encFrame i) State.reset.toBlock = none) ∧
  statusCode State.reset.decStatus = 7 ∧ latchValue .decRaw State.reset.toBlock = none ∧
  latchValue .decPos State.reset.toBlock = none ∧ State.reset.tx = [] ∧ State.reset.inputs = [] ∧
  State.reset.cfg.readposMode = .emitRead ∧ State.reset.cfg.posOrderA = .le ∧ State.reset.cfg.rawSigned = true ∧
  State.reset.cfg.rxMax = 255

/-- R16: a latch read faults exactly when the latch holds ⊥: a frame byte at index `ENC_LEN` or above, `DEC_RAW` or `DEC_POS`
while `DEC_STATUS` is not `OK`. Any other read hands out the value of the latch that was read, a status by its code (R79),
and changes nothing else. That the value is recorded in `readLog` is the model's (log entry 7). -/
def Obligations.LatchReadFaultsExactlyOnBottom : Prop :=
  ∀ (s : State) (l : Latch) (rest : List Input), configValid s.cfg = true → Inv s → s.inputs = .read l :: rest →
    ((match l with
        | .encFrame i => s.encLen.toNat ≤ i.val
        | .decRaw => s.decStatus ≠ .ok
        | .decPos => s.decStatus ≠ .ok
        | .encStatus => False
        | .encLen => False
        | .decStatus => False) →
      step s = .fault (.latchHoldsNoValue l)) ∧
    ((match l with
        | .encFrame i => i.val < s.encLen.toNat
        | .decRaw => s.decStatus = .ok
        | .decPos => s.decStatus = .ok
        | .encStatus => True
        | .encLen => True
        | .decStatus => True) →
      ∃ v, step s = .next { s with inputs := rest, readLog := s.readLog ++ [v] } ∧
        (match l with
          | .encFrame i => ∃ x, s.encFrame[i.val]? = some x ∧ v = .byte x
          | .decRaw => ∃ u, s.decRaw = some u ∧ v = .raw u
          | .decPos => ∃ p, s.decPos = some p ∧ v = .pos p
          | .encStatus => v = .status (statusCode s.encStatus)
          | .encLen => v = .len s.encLen
          | .decStatus => v = .status (statusCode s.decStatus)))

/-- R82: the only fault is a read of a latch holding ⊥. A transaction never faults, whatever its status. -/
def Obligations.OnlyLatchReadsFault : Prop :=
  ∀ (s : State) (f : Fault), step s = .fault f →
    ∃ (l : Latch) (rest : List Input), s.inputs = .read l :: rest ∧ latchValue l s.toBlock = none ∧ f = .latchHoldsNoValue l

/-- R82: a run is faulted exactly when one of the steps it has taken served a read of a latch holding ⊥, whatever the run would
go on to do, so the mark stays once it is set and nothing else sets it. The mark is the run's outcome (log entry 7). -/
def Obligations.BottomReadFaultsTheRunForGood : Prop :=
  ∀ (n : Nat) (s : State) (f : Fault), configValid s.cfg = true →
    (core.run n s = .fault f ↔
      ∃ (m : Nat) (t : State) (l : Latch) (rest : List Input), m < n ∧ core.run m s = .next t ∧
        t.inputs = .read l :: rest ∧ HoldsBottom l t ∧ f = .latchHoldsNoValue l)

/-- R17: the configuration is an argument of the block's step and no part of its state. Every instruction, and every run at
the host's interface, is that of the block under the configuration packed beside it, handed back as it was. The packing
is the model's (log entry 1). -/
def Obligations.ConfigurationIsAnArgumentOnly : Prop :=
  (∀ (i : Instr) (s : State), exec i s = packResult s.cfg (execUnder s.cfg i s.toBlock)) ∧
  (∀ (n : Nat) (s : State), core.run n s = packResult s.cfg ((machineUnder s.cfg).run n s.toBlock))

/-- R17: no run changes the configuration. -/
def Obligations.ConfigurationNeverChanges : Prop :=
  ∀ (n : Nat) (s t : State), core.run n s = .next t → t.cfg = s.cfg

/-- R5, R98: nothing the block does depends on `PORT_BASE` or a latency. -/
def Obligations.OpenHostParametersHaveNoEffect : Prop :=
  ∀ (s t : State) (base : Int) (encLat decLat : Nat), step s = .next t →
    step { s with cfg := { s.cfg with portBase := base, encLatency := encLat, decLatency := decLat } } =
      .next { t with cfg := { t.cfg with portBase := base, encLatency := encLat, decLatency := decLat } }

/-- R32: a step leaves `TX` alone or appends one whole frame, the one its `OK` transaction latched. -/
def Obligations.StepAppendsOneWholeFrameOrNothing : Prop :=
  ∀ s t : State, step s = .next t →
    t.tx = s.tx ∨ (t.encStatus = .ok ∧ isFrame t.encFrame = true ∧ t.tx = s.tx ++ t.encFrame)

/-- R32, R18: over any run the stream grows by exactly the frames its `OK` encoder transactions latched, whole, in step
order, with nothing between them. -/
def Obligations.StreamGrowsByWholeFrames : Prop :=
  ∀ (n : Nat) (s t : State), core.run n s = .next t →
    t.tx = s.tx ++ (framesOfRun n s).flatten ∧ (∀ f ∈ framesOfRun n s, isFrame f = true) ∧
    (framesOfRun n s).length ≤ n

/-- R13, R16, R32, R71, R80: every step keeps the invariant of latches and stream, from every state that meets it. -/
def Obligations.StepKeepsTheInvariant : Prop :=
  ∀ s t : State, Inv s → step s = .next t → Inv t

/-- The invariant holds at system start. -/
def Obligations.SystemStartMeetsTheInvariant : Prop := Inv State.reset

/-- R79: the status codes, each its own. -/
def Obligations.StatusCodesAreDistinct : Prop :=
  statusCode .ok = 0 ∧ statusCode .malformedReply = 1 ∧ statusCode .unsupported = 2 ∧ statusCode .errCmd = 3 ∧
  statusCode .errInstr = 4 ∧ statusCode .errShape = 5 ∧ statusCode .errMsglen = 6 ∧ statusCode .noneYet = 7 ∧
  ∀ st st' : Status, statusCode st = statusCode st' → st = st'

/-- D17, R14, R71: a reply longer than the port of a validly configured block carries would be answered as malformed, on either
path. -/
def Obligations.OverlongReplyIsMalformed : Prop :=
  ∀ (r : DecRequest) (s : State), configValid s.cfg = true → (Request.dec r).presentable s.cfg = false →
    exec (decode (.dec r)) s = .next (afterReply .malformedReply none none s)
end

