-- ==== Sys2Proof/Laws/Framing.lean ====
section
/-! SUPPORT. The checksum generator and the frame assembler: the accumulator as a sum, the lengths of the two shapes. -/

namespace Sys2Proof.Machine

/-- Accumulating from any start adds the sum of the bytes, mod 2^16. -/
theorem foldl_acc_toNat (s : List Byte) (start : Half) :
    (s.foldl (fun acc b => acc + b.zeroExtend 16) start).toNat = (start.toNat + (s.map (·.toNat)).sum) % 65536 := by
  induction s generalizing start with
  | nil => simp [Nat.mod_eq_of_lt start.isLt]
  | cons b rest ih =>
    simp only [List.foldl_cons, ih, List.map_cons, List.sum_cons, BitVec.toNat_add, BitVec.toNat_setWidth]
    omega

/-- The accumulator is the sum of the bytes mod 2^16 (R48). -/
theorem checksumAcc_toNat (s : List Byte) : (checksumAcc s).toNat = (s.map (·.toNat)).sum % 65536 := by
  simp [checksumAcc, foldl_acc_toNat]

/-- The checksum byte is the complement of the sum of the bytes taken as bytes (R49). -/
theorem checksum_eq_not_sum (s : List Byte) : checksum s = ~~~ s.sum := by
  have sum_toNat : ∀ s : List Byte, s.sum.toNat = (s.map (·.toNat)).sum % 256 := by
    intro s
    induction s with
    | nil => simp
    | cons b rest ih => simp only [List.sum_cons, BitVec.toNat_add, ih, List.map_cons]; omega
  apply BitVec.eq_of_toNat_eq
  simp only [checksum, BitVec.extractLsb'_toNat, BitVec.toNat_not, checksumAcc_toNat, sum_toNat]
  omega

/-- A body of shape S1 (R36). -/
@[simp] theorem frameBody_none (instr id : Byte) (p : List Byte) : frameBody instr id none p = [id, 2, instr] := rfl

/-- A body of shape S2 (R37). -/
@[simp] theorem frameBody_some (instr id r : Byte) (p : List Byte) :
    frameBody instr id (some r) p = [id, BitVec.ofNat 8 (3 + p.length), instr, r] ++ p := rfl

/-- A whole frame of shape S1 (R36). -/
theorem frame_none (instr id : Byte) (p : List Byte) :
    frame instr id none p = [0xFF, 0xFF, id, 2, instr, ~~~(id + 2 + instr)] := by
  simp [frame, frameMarker, checksum_eq_not_sum, BitVec.add_assoc]

/-- A whole frame of shape S2 (R37). -/
theorem frame_some (instr id r : Byte) (p : List Byte) :
    frame instr id (some r) p =
      [0xFF, 0xFF, id, BitVec.ofNat 8 (3 + p.length), instr, r] ++ p ++
        [~~~(id + BitVec.ofNat 8 (3 + p.length) + instr + r + p.sum)] := by
  simp [frame, frameMarker, checksum_eq_not_sum, BitVec.add_assoc]

end Sys2Proof.Machine
end

