-- ==== Sys2Proof/Laws/Decode.lean ====
section
/-! SUPPORT. The decoder's parts: the code table, the port's padding, and frames as `decodeFrame` reads them. -/

namespace Sys2Proof

open Machine

/-- A byte selects a bus instruction exactly when it is one of the eight codes (R39, R40). -/
theorem busRow_isSome (b : Byte) : (busRow b).isSome = isBusCode b := by
  revert b; decide

/-- An illegal code selects no bus instruction (R40). -/
theorem busRow_eq_none {b : Byte} (h : isBusCode b = false) : busRow b = none := by
  rw [← busRow_isSome] at h
  simpa using h

/-- A legal code selects one (R39). -/
theorem busRow_eq_some {b : Byte} (h : isBusCode b = true) : ∃ row, busRow b = some row := by
  rw [← busRow_isSome] at h
  exact Option.isSome_iff_exists.mp h

/-- Each row of the bus table selects itself by its code, a legal one. -/
theorem busInstrs_select : ∀ p ∈ busInstrs, busRow p.2 = some p.1 ∧ isBusCode p.2 = true := by
  simp [busInstrs, busRow, isBusCode, instrCodes, instrPing, instrRead, instrWrite, instrRegWrite, instrAction,
    instrRecover, instrSyncWrite, instrReset]

/-- A row that some byte selects is in the table, with that byte as its code. -/
theorem mem_busInstrs {b : Byte} {row : RawArgs → Instr} (h : busRow b = some row) : (row, b) ∈ busInstrs := by
  unfold busRow at h
  split_ifs at h <;> cases h <;> subst_vars <;> simp [busInstrs]

/-- The first `k` bytes driven are the first `k` bytes at the port. -/
theorem padTo_take (n k : Nat) (p : List Byte) (hn : p.length ≤ n) (hk : k ≤ p.length) :
    (padTo n p).toList.take k = p.take k := by
  simp [padTo, List.take_of_length_le hn, List.take_append_of_le_length hk]

/-- A frame of shape S1 reads as one frame (R36). -/
theorem isFrame_frame_none {instr : Byte} (h : isBusCode instr = true) (id : Byte) (p : List Byte) :
    isFrame (frame instr id none p) = true := by
  obtain ⟨row, hrow⟩ := busRow_eq_some h
  simp [isFrame, decodeFrame, frame, frameMarker, hrow, Except.toBool]

/-- A frame of shape S2 reads as one frame (R37). -/
theorem isFrame_frame_some {instr : Byte} (h : isBusCode instr = true) (id r : Byte) (p : List Byte)
    (hp : p.length ≤ 252) : isFrame (frame instr id (some r) p) = true := by
  obtain ⟨row, hrow⟩ := busRow_eq_some h
  have hlen : (BitVec.ofNat 8 (3 + p.length)).toNat = 3 + p.length := by
    simp only [BitVec.toNat_ofNat]; omega
  have hne : BitVec.ofNat 8 (3 + p.length) ≠ (2 : Byte) := by
    intro h2
    have := congrArg BitVec.toNat h2
    rw [hlen] at this
    simp at this
    omega
  simp only [isFrame, frame, frameMarker, frameBody_some, List.cons_append, List.nil_append, decodeFrame, hlen, hrow, hne]
  simp [Except.toBool, show ¬ (3 + p.length ≤ 1) by omega, show p.length + 3 = 3 + p.length by omega]

/-- What bytes that read as a frame look like (R35, R36, R37). -/
theorem decodeFrame_eq_ok {bytes : List Byte} {i : Instr} (h : decodeFrame bytes = .ok i) :
    ∃ id msgLen instr x rest row, bytes = 0xFF :: 0xFF :: id :: msgLen :: instr :: x :: rest ∧
      busRow instr = some row ∧ rest.length + 2 = msgLen.toNat ∧
      ((msgLen = 2 ∧ x = checksum [id, msgLen, instr] ∧ i = row ⟨id, false, 0, 0, []⟩) ∨
       (msgLen ≠ 2 ∧ rest.getLast? = some (checksum ([id, msgLen, instr, x] ++ rest.dropLast)) ∧
        i = row ⟨id, true, x, BitVec.ofNat 8 (msgLen.toNat - 3), rest.dropLast⟩)) := by
  unfold decodeFrame at h
  split at h
  · rename_i m0 m1 id msgLen instr x rest
    split_ifs at h with hm hml hl
    all_goals
      cases hrow : busRow instr with
      | none => simp [hrow] at h
      | some row =>
        simp only [hrow, Except.ok.injEq, reduceCtorEq] at h
        all_goals
          obtain ⟨rfl, rfl⟩ : m0 = 0xFF ∧ m1 = 0xFF := by simpa using hm
          refine ⟨id, msgLen, instr, x, rest, row, rfl, hrow, by omega, ?_⟩
          first
            | exact .inl ⟨by assumption, by assumption, h.symm⟩
            | exact .inr ⟨by assumption, by assumption, h.symm⟩
  · simp at h

/-- Bytes that are one frame begin with the marker and are `msgLen + 4` long (R45). -/
theorem isFrame_shape {f : List Byte} (h : isFrame f = true) :
    ∃ id msgLen instr x rest, f = 0xFF :: 0xFF :: id :: msgLen :: instr :: x :: rest ∧
      rest.length + 2 = msgLen.toNat := by
  unfold isFrame at h
  cases hd : decodeFrame f with
  | error e => simp [hd, Except.toBool] at h
  | ok i =>
    obtain ⟨id, msgLen, instr, x, rest, row, hf, -, hlen, -⟩ := decodeFrame_eq_ok hd
    exact ⟨id, msgLen, instr, x, rest, hf, hlen⟩

end Sys2Proof
end

