-- ==== Sys2Proof/Laws/Operands.lean ====
section
/-! SUPPORT. Operand assembly and field extraction as integer arithmetic. -/

namespace Sys2Proof.Machine

/-- The clamp as a minimum and a maximum (R7). -/
theorem clamp_eq_max_min (x lo hi : Int) (h : lo ≤ hi) : clamp x lo hi = max lo (min x hi) := by
  unfold clamp; split <;> (try split) <;> omega

/-- The clamped value lies in 0..1023 (R43). -/
theorem clamp10_toNat (x : Arg) : ((clamp10 x).toNat : Int) = max 0 (min x.toInt 1023) := by
  rw [clamp10, clamp_eq_max_min _ _ _ (by decide), BitVec.toNat_ofInt]
  simp only [clampLo, clampHi]
  omega

/-- Arguments with one clamped value are packed alike (R69). -/
theorem clamp10_congr {x y : Arg} (h : y.toInt = max 0 (min x.toInt 1023)) : clamp10 y = clamp10 x := by
  apply BitVec.eq_of_toNat_eq
  have hx := clamp10_toNat x
  have hy := clamp10_toNat y
  omega

/-- The low byte as a number (R6). -/
theorem lowByte_toNat (v : Half) : (lowByte v).toNat = v.toNat % 256 := by
  simp [lowByte, BitVec.extractLsb'_toNat]

/-- The high byte as a number (R6). -/
theorem highByte_toNat (v : Half) : (highByte v).toNat = v.toNat / 256 := by
  simp only [highByte, BitVec.extractLsb'_toNat, Nat.shiftRight_eq_div_pow]
  omega

/-- Joining two bytes is the high one times 256 plus the low one (R72). -/
theorem joinBytes_toNat (hi lo : Byte) : (joinBytes hi lo).toNat = 256 * hi.toNat + lo.toNat := by
  have hh := hi.isLt
  have hl := lo.isLt
  simp only [joinBytes, BitVec.toNat_or, BitVec.toNat_shiftLeft, BitVec.toNat_setWidth]
  rw [Nat.mod_eq_of_lt (show hi.toNat < 2 ^ 16 by omega), Nat.mod_eq_of_lt (show lo.toNat < 2 ^ 16 by omega),
    Nat.shiftLeft_eq, Nat.mod_eq_of_lt (by omega), Nat.mul_comm, ← Nat.two_pow_add_eq_or_of_lt (i := 8) (by omega)]

/-- The low byte of two joined bytes. -/
@[simp] theorem lowByte_joinBytes (hi lo : Byte) : lowByte (joinBytes hi lo) = lo := by
  apply BitVec.eq_of_toNat_eq
  rw [lowByte_toNat, joinBytes_toNat]
  omega

/-- The high byte of two joined bytes. -/
@[simp] theorem highByte_joinBytes (hi lo : Byte) : highByte (joinBytes hi lo) = hi := by
  apply BitVec.eq_of_toNat_eq
  rw [highByte_toNat, joinBytes_toNat]
  omega

/-- Path A's field of a 14-byte reply, in the order the configuration names (R72). -/
theorem fieldA_eq (order : ByteOrder) (rx : List Byte) :
    fieldA order rx = readField order (rx.getD 11 0) (rx.getD 12 0) := rfl

/-- Byte `k` of the reversed reply is byte `13 - k` (R8, R73). -/
theorem replyByte_reverse (rx : List Byte) (h : rx.length = 14) (k : Nat) (hk : k < 14) :
    replyByte rx.reverse k = rx.getD (13 - k) 0 := by
  simp only [replyByte, List.getD_eq_getElem?_getD]
  rw [List.getElem?_reverse (by omega), h]

/-- Path B reads the same two bytes as path A, second one first (R73). -/
theorem fieldB_eq (order : ByteOrder) (rx : List Byte) (h : rx.length = 14) :
    fieldB order rx = readField order (rx.getD 12 0) (rx.getD 11 0) := by
  simp only [fieldB, posOffsetReversed]
  rw [replyByte_reverse rx h 1 (by omega), replyByte_reverse rx h (1 + 1) (by omega)]

/-- The signed reading as a case split at 0x8000 (R7, R74). -/
theorem rawValue_eq (c : Config) (u : Half) :
    rawValue c u = if c.rawSigned = true ∧ 32768 ≤ u.toNat then (u.toNat : Int) - 65536 else (u.toNat : Int) := by
  unfold rawValue
  rw [BitVec.toInt_eq_toNat_cond]
  by_cases hs : c.rawSigned = true <;> by_cases hu : 32768 ≤ u.toNat <;>
    simp only [hs, hu, if_true, if_false, and_true, and_false] <;> (try split) <;> omega

/-- The remap's formula with its constants in place (R75). -/
theorem remap_eq (c : Config) (v : Int) :
    remap c v = BitVec.ofInt 32
      (c.servoMin.toInt + max 0 (min v 1000) * (c.servoMax.toInt - c.servoMin.toInt) / 1000) := by
  simp only [remap, remapInt, clamp_eq_max_min v rawLo rawHi (by decide)]
  simp [rawLo, rawHi]

/-- The exact remap lies on the scale (R75). -/
theorem remapInt_mem_scale (c : Config) (v : Int) (h : c.servoMin.toInt < c.servoMax.toInt) :
    c.servoMin.toInt ≤ remapInt c v ∧ remapInt c v ≤ c.servoMax.toInt := by
  have hv : 0 ≤ clamp v rawLo rawHi - rawLo ∧ clamp v rawLo rawHi - rawLo ≤ 1000 := by
    rw [clamp_eq_max_min v rawLo rawHi (by decide)]; simp only [rawLo, rawHi]; omega
  obtain ⟨h0, h1⟩ := hv
  have hd : (0 : Int) ≤ c.servoMax.toInt - c.servoMin.toInt := by omega
  have lower := Int.mul_nonneg h0 hd
  have upper := Int.mul_le_mul_of_nonneg_right h1 hd
  simp only [remapInt]
  rw [show rawHi - rawLo = 1000 from rfl]
  omega

/-- On the scale the 32-bit port holds the remap exactly (R75). -/
theorem remap_toInt (c : Config) (v : Int) (h : c.servoMin.toInt < c.servoMax.toInt) :
    (remap c v).toInt = remapInt c v := by
  obtain ⟨lower, upper⟩ := remapInt_mem_scale c v h
  have := c.servoMin.le_toInt
  have := c.servoMax.toInt_lt
  rw [remap, BitVec.toInt_ofInt]
  apply Int.bmod_eq_of_le <;> simp at * <;> omega

end Sys2Proof.Machine
end

