-- ==== Sys2Proof/Laws/State.lean ====
section
/-! SUPPORT. One lemma per field per update of the block's state and of the packed state, true by rfl, so that no later proof
unfolds a record update; and what an operation on the block is at the host's interface. -/

namespace Sys2Proof.Machine

@[simp] theorem respondEnc_encStatus (st : Status) (f : List Byte) (b : Block) : (respondEnc st f b).encStatus = st := rfl
@[simp] theorem respondEnc_encLen (st : Status) (f : List Byte) (b : Block) : (respondEnc st f b).encLen = BitVec.ofNat 9 f.length := rfl
@[simp] theorem respondEnc_encFrame (st : Status) (f : List Byte) (b : Block) : (respondEnc st f b).encFrame = f := rfl
@[simp] theorem respondEnc_decStatus (st : Status) (f : List Byte) (b : Block) : (respondEnc st f b).decStatus = b.decStatus := rfl
@[simp] theorem respondEnc_decRaw (st : Status) (f : List Byte) (b : Block) : (respondEnc st f b).decRaw = b.decRaw := rfl
@[simp] theorem respondEnc_decPos (st : Status) (f : List Byte) (b : Block) : (respondEnc st f b).decPos = b.decPos := rfl
@[simp] theorem respondEnc_tx (st : Status) (f : List Byte) (b : Block) : (respondEnc st f b).tx = b.tx := rfl
@[simp] theorem respondEnc_inputs (st : Status) (f : List Byte) (b : Block) : (respondEnc st f b).inputs = b.inputs := rfl
@[simp] theorem respondEnc_readLog (st : Status) (f : List Byte) (b : Block) : (respondEnc st f b).readLog = b.readLog := rfl

@[simp] theorem respondDec_encStatus (st : Status) (u : Option Half) (p : Option Arg) (b : Block) : (respondDec st u p b).encStatus = b.encStatus := rfl
@[simp] theorem respondDec_encLen (st : Status) (u : Option Half) (p : Option Arg) (b : Block) : (respondDec st u p b).encLen = b.encLen := rfl
@[simp] theorem respondDec_encFrame (st : Status) (u : Option Half) (p : Option Arg) (b : Block) : (respondDec st u p b).encFrame = b.encFrame := rfl
@[simp] theorem respondDec_decStatus (st : Status) (u : Option Half) (p : Option Arg) (b : Block) : (respondDec st u p b).decStatus = st := rfl
@[simp] theorem respondDec_decRaw (st : Status) (u : Option Half) (p : Option Arg) (b : Block) : (respondDec st u p b).decRaw = u := rfl
@[simp] theorem respondDec_decPos (st : Status) (u : Option Half) (p : Option Arg) (b : Block) : (respondDec st u p b).decPos = p := rfl
@[simp] theorem respondDec_tx (st : Status) (u : Option Half) (p : Option Arg) (b : Block) : (respondDec st u p b).tx = b.tx := rfl
@[simp] theorem respondDec_inputs (st : Status) (u : Option Half) (p : Option Arg) (b : Block) : (respondDec st u p b).inputs = b.inputs := rfl
@[simp] theorem respondDec_readLog (st : Status) (u : Option Half) (p : Option Arg) (b : Block) : (respondDec st u p b).readLog = b.readLog := rfl

@[simp] theorem transmit_encStatus (f : List Byte) (b : Block) : (transmit f b).encStatus = b.encStatus := rfl
@[simp] theorem transmit_encLen (f : List Byte) (b : Block) : (transmit f b).encLen = b.encLen := rfl
@[simp] theorem transmit_encFrame (f : List Byte) (b : Block) : (transmit f b).encFrame = b.encFrame := rfl
@[simp] theorem transmit_decStatus (f : List Byte) (b : Block) : (transmit f b).decStatus = b.decStatus := rfl
@[simp] theorem transmit_decRaw (f : List Byte) (b : Block) : (transmit f b).decRaw = b.decRaw := rfl
@[simp] theorem transmit_decPos (f : List Byte) (b : Block) : (transmit f b).decPos = b.decPos := rfl
@[simp] theorem transmit_tx (f : List Byte) (b : Block) : (transmit f b).tx = b.tx ++ f := rfl
@[simp] theorem transmit_inputs (f : List Byte) (b : Block) : (transmit f b).inputs = b.inputs := rfl
@[simp] theorem transmit_readLog (f : List Byte) (b : Block) : (transmit f b).readLog = b.readLog := rfl

@[simp] theorem resetBlock_encStatus (b : Block) : (resetBlock b).encStatus = .noneYet := rfl
@[simp] theorem resetBlock_encLen (b : Block) : (resetBlock b).encLen = 0 := rfl
@[simp] theorem resetBlock_encFrame (b : Block) : (resetBlock b).encFrame = [] := rfl
@[simp] theorem resetBlock_decStatus (b : Block) : (resetBlock b).decStatus = .noneYet := rfl
@[simp] theorem resetBlock_decRaw (b : Block) : (resetBlock b).decRaw = none := rfl
@[simp] theorem resetBlock_decPos (b : Block) : (resetBlock b).decPos = none := rfl
@[simp] theorem resetBlock_tx (b : Block) : (resetBlock b).tx = b.tx := rfl
@[simp] theorem resetBlock_inputs (b : Block) : (resetBlock b).inputs = b.inputs := rfl
@[simp] theorem resetBlock_readLog (b : Block) : (resetBlock b).readLog = b.readLog := rfl

@[simp] theorem offer_encStatus (rs : List Request) (b : Block) : (offer rs b).encStatus = b.encStatus := rfl
@[simp] theorem offer_encLen (rs : List Request) (b : Block) : (offer rs b).encLen = b.encLen := rfl
@[simp] theorem offer_encFrame (rs : List Request) (b : Block) : (offer rs b).encFrame = b.encFrame := rfl
@[simp] theorem offer_decStatus (rs : List Request) (b : Block) : (offer rs b).decStatus = b.decStatus := rfl
@[simp] theorem offer_decRaw (rs : List Request) (b : Block) : (offer rs b).decRaw = b.decRaw := rfl
@[simp] theorem offer_decPos (rs : List Request) (b : Block) : (offer rs b).decPos = b.decPos := rfl
@[simp] theorem offer_tx (rs : List Request) (b : Block) : (offer rs b).tx = b.tx := rfl
@[simp] theorem offer_inputs (rs : List Request) (b : Block) : (offer rs b).inputs = b.inputs ++ rs.map .request := rfl
@[simp] theorem offer_readLog (rs : List Request) (b : Block) : (offer rs b).readLog = b.readLog := rfl

@[simp] theorem afterFrame_cfg (f : List Byte) (s : State) : (afterFrame f s).cfg = s.cfg := rfl
@[simp] theorem afterFrame_encStatus (f : List Byte) (s : State) : (afterFrame f s).encStatus = .ok := rfl
@[simp] theorem afterFrame_encLen (f : List Byte) (s : State) : (afterFrame f s).encLen = BitVec.ofNat 9 f.length := rfl
@[simp] theorem afterFrame_encFrame (f : List Byte) (s : State) : (afterFrame f s).encFrame = f := rfl
@[simp] theorem afterFrame_decStatus (f : List Byte) (s : State) : (afterFrame f s).decStatus = s.decStatus := rfl
@[simp] theorem afterFrame_decRaw (f : List Byte) (s : State) : (afterFrame f s).decRaw = s.decRaw := rfl
@[simp] theorem afterFrame_decPos (f : List Byte) (s : State) : (afterFrame f s).decPos = s.decPos := rfl
@[simp] theorem afterFrame_tx (f : List Byte) (s : State) : (afterFrame f s).tx = s.tx ++ f := rfl
@[simp] theorem afterFrame_inputs (f : List Byte) (s : State) : (afterFrame f s).inputs = s.inputs := rfl
@[simp] theorem afterFrame_readLog (f : List Byte) (s : State) : (afterFrame f s).readLog = s.readLog := rfl

@[simp] theorem afterRefusal_cfg (st : Status) (s : State) : (afterRefusal st s).cfg = s.cfg := rfl
@[simp] theorem afterRefusal_encStatus (st : Status) (s : State) : (afterRefusal st s).encStatus = st := rfl
@[simp] theorem afterRefusal_encLen (st : Status) (s : State) : (afterRefusal st s).encLen = 0 := rfl
@[simp] theorem afterRefusal_encFrame (st : Status) (s : State) : (afterRefusal st s).encFrame = [] := rfl
@[simp] theorem afterRefusal_decStatus (st : Status) (s : State) : (afterRefusal st s).decStatus = s.decStatus := rfl
@[simp] theorem afterRefusal_decRaw (st : Status) (s : State) : (afterRefusal st s).decRaw = s.decRaw := rfl
@[simp] theorem afterRefusal_decPos (st : Status) (s : State) : (afterRefusal st s).decPos = s.decPos := rfl
@[simp] theorem afterRefusal_tx (st : Status) (s : State) : (afterRefusal st s).tx = s.tx := rfl
@[simp] theorem afterRefusal_inputs (st : Status) (s : State) : (afterRefusal st s).inputs = s.inputs := rfl
@[simp] theorem afterRefusal_readLog (st : Status) (s : State) : (afterRefusal st s).readLog = s.readLog := rfl

@[simp] theorem afterReply_cfg (st : Status) (u : Option Half) (p : Option Arg) (s : State) : (afterReply st u p s).cfg = s.cfg := rfl
@[simp] theorem afterReply_encStatus (st : Status) (u : Option Half) (p : Option Arg) (s : State) : (afterReply st u p s).encStatus = s.encStatus := rfl
@[simp] theorem afterReply_encLen (st : Status) (u : Option Half) (p : Option Arg) (s : State) : (afterReply st u p s).encLen = s.encLen := rfl
@[simp] theorem afterReply_encFrame (st : Status) (u : Option Half) (p : Option Arg) (s : State) : (afterReply st u p s).encFrame = s.encFrame := rfl
@[simp] theorem afterReply_decStatus (st : Status) (u : Option Half) (p : Option Arg) (s : State) : (afterReply st u p s).decStatus = st := rfl
@[simp] theorem afterReply_decRaw (st : Status) (u : Option Half) (p : Option Arg) (s : State) : (afterReply st u p s).decRaw = u := rfl
@[simp] theorem afterReply_decPos (st : Status) (u : Option Half) (p : Option Arg) (s : State) : (afterReply st u p s).decPos = p := rfl
@[simp] theorem afterReply_tx (st : Status) (u : Option Half) (p : Option Arg) (s : State) : (afterReply st u p s).tx = s.tx := rfl
@[simp] theorem afterReply_inputs (st : Status) (u : Option Half) (p : Option Arg) (s : State) : (afterReply st u p s).inputs = s.inputs := rfl
@[simp] theorem afterReply_readLog (st : Status) (u : Option Half) (p : Option Arg) (s : State) : (afterReply st u p s).readLog = s.readLog := rfl

@[simp] theorem afterReset_cfg (s : State) : (afterReset s).cfg = s.cfg := rfl
@[simp] theorem afterReset_encStatus (s : State) : (afterReset s).encStatus = .noneYet := rfl
@[simp] theorem afterReset_encLen (s : State) : (afterReset s).encLen = 0 := rfl
@[simp] theorem afterReset_encFrame (s : State) : (afterReset s).encFrame = [] := rfl
@[simp] theorem afterReset_decStatus (s : State) : (afterReset s).decStatus = .noneYet := rfl
@[simp] theorem afterReset_decRaw (s : State) : (afterReset s).decRaw = none := rfl
@[simp] theorem afterReset_decPos (s : State) : (afterReset s).decPos = none := rfl
@[simp] theorem afterReset_tx (s : State) : (afterReset s).tx = s.tx := rfl
@[simp] theorem afterReset_inputs (s : State) : (afterReset s).inputs = s.inputs := rfl
@[simp] theorem afterReset_readLog (s : State) : (afterReset s).readLog = s.readLog := rfl

/-- A packed answer is a next state exactly when the block's is. -/
@[simp] theorem packResult_next (c : Config) (b : Block) : packResult c (.next b) = .next { toBlock := b, cfg := c } := rfl
@[simp] theorem packResult_fault (c : Config) (f : Fault) : packResult c (.fault f) = .fault f := rfl
@[simp] theorem packResult_refused (c : Config) (r : Refusal) : packResult c (.refused r) = .refused r := rfl

/-- What an `OK` encoder transaction leaves, in the words claims use. -/
theorem emitFrame_eq (f : List Byte) (s : State) : (s.onBlock fun _ => emitFrame f) = .next (afterFrame f s) := rfl

/-- What a refused encoder transaction leaves. -/
theorem raiseEnc_eq (st : Status) (s : State) : (s.onBlock fun _ => raiseEnc st) = .next (afterRefusal st s) := rfl

/-- What a refused decoder transaction leaves. -/
theorem raiseDec_eq (st : Status) (s : State) : (s.onBlock fun _ => raiseDec st) = .next (afterReply st none none s) := rfl

end Sys2Proof.Machine
end

