-- ==== Sys2Proof/Laws/Exec.lean ====
section
/-! SUPPORT. Everything an instruction can do, said once: an encoder instruction answers a status and a frame that its
request and the configuration fix, a decoder instruction a status and two values. -/

namespace Sys2Proof.Machine

/-- The configurations R92 admits; the order of `RAW_LO` and `RAW_HI` holds of the constants. -/
theorem configValid_iff (c : Config) :
    configValid c = true ↔ (c.servoMin.toInt < c.servoMax.toInt ∧ 15 ≤ c.rxMax) := by
  unfold configValid
  rw [Bool.and_eq_true, Bool.and_eq_true, decide_eq_true_iff, decide_eq_true_iff, decide_eq_true_iff]
  simp [rawLo, rawHi, rxMaxLeast]

/-- RAW's operands are accepted exactly when the code is legal and the shape and length checks pass (R53). -/
theorem rawStatus_eq_ok (instr : Byte) (a : RawArgs) :
    rawStatus instr a = .ok ↔
      isBusCode instr = true ∧ (a.hasReg = false → a.plen = 0) ∧ (a.hasReg = true → a.plen.toNat ≤ 252) := by
  unfold rawStatus payloadMax
  cases isBusCode instr <;> cases a.hasReg <;> simp

/-- A RAW request's statuses (R53). -/
theorem rawStatus_legal (instr : Byte) (a : RawArgs) :
    rawStatus instr a = .ok ∨ rawStatus instr a = .errInstr ∨ rawStatus instr a = .errShape ∨
      rawStatus instr a = .errMsglen := by
  unfold rawStatus
  split
  · simp
  · split
    · split <;> simp
    · split <;> simp

/-- An accepted RAW request's frame is whole (R35). -/
theorem isFrame_rawFrame {instr : Byte} {a : RawArgs} (h : rawStatus instr a = .ok) :
    isFrame (rawFrame instr a) = true := by
  obtain ⟨hcode, -, hlen⟩ := (rawStatus_eq_ok instr a).mp h
  unfold rawFrame rawReg rawPayload
  cases hr : a.hasReg
  · exact isFrame_frame_none hcode _ _
  · refine isFrame_frame_some hcode _ _ _ ?_
    have := hlen hr
    simp only [if_true, List.length_take]
    omega

/-- A bus instruction is the RAW request of its code. -/
theorem exec_busInstr {p : (RawArgs → Instr) × Byte} (h : p ∈ busInstrs) (a : RawArgs) (s : State) :
    exec (p.1 a) s = s.onBlock fun _ => rawRequest p.2 a := by
  have all : ∀ q ∈ busInstrs, exec (q.1 a) s = s.onBlock fun _ => rawRequest q.2 a := by
    simp only [busInstrs, List.forall_mem_cons]
    refine ⟨?_, ?_, ?_, ?_, ?_, ?_, ?_, ?_, by simp⟩
    all_goals rfl
  exact all p h

/-- Whichever constructor a RAW request decodes to, it does what R53 says. -/
theorem exec_decodeRaw (instr : Byte) (a : RawArgs) (s : State) :
    exec (decodeRaw instr a) s = s.onBlock fun _ => rawRequest instr a := by
  unfold decodeRaw
  cases h : busRow instr with
  | none => rfl
  | some row => exact exec_busInstr (mem_busInstrs h) a s

/-- The status and frame of an encoder instruction under a configuration. -/
def encResponse (c : Config) : Instr → Status × List Byte
  | .pingI a => (rawStatus instrPing a, rawFrame instrPing a)
  | .readI a => (rawStatus instrRead a, rawFrame instrRead a)
  | .writeI a => (rawStatus instrWrite a, rawFrame instrWrite a)
  | .regwriteI a => (rawStatus instrRegWrite a, rawFrame instrRegWrite a)
  | .actionI a => (rawStatus instrAction a, rawFrame instrAction a)
  | .recoverI a => (rawStatus instrRecover a, rawFrame instrRecover a)
  | .syncwriteI a => (rawStatus instrSyncWrite a, rawFrame instrSyncWrite a)
  | .resetI a => (rawStatus instrReset a, rawFrame instrReset a)
  | .ping id => (.ok, frame instrPing id none [])
  | .torque id on => (.ok, frame instrWrite id (some addrTorqueEnable) [if on then 1 else 0])
  | .limits id a b => (.ok, frame instrWrite id (some addrGoalPositionLow) (le16 (clamp10 a) ++ le16 (clamp10 b)))
  | .move id a =>
    (.ok, frame instrWrite id (some addrGoalPositionLow) (be16 (clamp10 a) ++ be16 moveTime ++ be16 moveSpeed))
  | .readpos id =>
    match c.readposMode with
    | .emitRead => (.ok, frame instrRead id (some addrPresentPositionLow) [readposCount])
    | .unsupported => (.unsupported, [])
  | .raw instr a => (rawStatus instr a, rawFrame instr a)
  | .reservedCmd6 => (.errCmd, [])
  | .reservedCmd7 => (.errCmd, [])
  | .decodeA _ => (.noneYet, [])
  | .decodeB _ => (.noneYet, [])

/-- The state an encoder response leaves. -/
def afterEnc (r : Status × List Byte) (s : State) : State :=
  if r.1 = .ok then afterFrame r.2 s else afterRefusal r.1 s

/-- A RAW request's answer as a response. -/
theorem rawRequest_eq (instr : Byte) (a : RawArgs) (s : State) :
    (s.onBlock fun _ => rawRequest instr a) = .next (afterEnc (rawStatus instr a, rawFrame instr a) s) := by
  simp only [State.onBlock, rawRequest, afterEnc]
  split_ifs <;> rfl

/-- Everything an encoder instruction can do. -/
theorem exec_encoder {i : Instr} (h : isEncoderInstr i = true) (s : State) :
    exec i s = .next (afterEnc (encResponse s.cfg i) s) := by
  cases i with
  | readpos id =>
    cases hm : s.cfg.readposMode <;> simp only [exec, execReadpos, State.onBlock, encResponse, hm] <;> rfl
  | decodeA rx => simp [isEncoderInstr] at h
  | decodeB rx => simp [isEncoderInstr] at h
  | ping id => rfl
  | torque id on => rfl
  | limits id a b => rfl
  | move id a => rfl
  | reservedCmd6 => rfl
  | reservedCmd7 => rfl
  | raw instr a => exact rawRequest_eq instr a s
  | pingI a => exact rawRequest_eq _ a s
  | readI a => exact rawRequest_eq _ a s
  | writeI a => exact rawRequest_eq _ a s
  | regwriteI a => exact rawRequest_eq _ a s
  | actionI a => exact rawRequest_eq _ a s
  | recoverI a => exact rawRequest_eq _ a s
  | syncwriteI a => exact rawRequest_eq _ a s
  | resetI a => exact rawRequest_eq _ a s

/-- An encoder instruction that answers `OK` answers a whole frame (R35). -/
theorem isFrame_encResponse {c : Config} {i : Instr} (h : (encResponse c i).1 = .ok) :
    isFrame (encResponse c i).2 = true := by
  cases i with
  | readpos id =>
    simp only [encResponse] at h ⊢
    split at h
    · exact isFrame_frame_some (by decide) _ _ _ (by simp)
    · simp at h
  | decodeA rx => simp [encResponse] at h
  | decodeB rx => simp [encResponse] at h
  | ping id => exact isFrame_frame_none (by decide) _ _
  | torque id on => exact isFrame_frame_some (by decide) _ _ _ (by simp)
  | limits id a b => exact isFrame_frame_some (by decide) _ _ _ (by simp [le16])
  | move id a => exact isFrame_frame_some (by decide) _ _ _ (by simp [be16])
  | reservedCmd6 => simp [encResponse] at h
  | reservedCmd7 => simp [encResponse] at h
  | raw instr a => exact isFrame_rawFrame h
  | pingI a => exact isFrame_rawFrame h
  | readI a => exact isFrame_rawFrame h
  | writeI a => exact isFrame_rawFrame h
  | regwriteI a => exact isFrame_rawFrame h
  | actionI a => exact isFrame_rawFrame h
  | recoverI a => exact isFrame_rawFrame h
  | syncwriteI a => exact isFrame_rawFrame h
  | resetI a => exact isFrame_rawFrame h

/-- The statuses an encoder instruction may answer (R13). -/
theorem encResponse_legal (c : Config) {i : Instr} (h : isEncoderInstr i = true) :
    (encResponse c i).1 = .ok ∨ (encResponse c i).1 = .unsupported ∨ (encResponse c i).1 = .errCmd ∨
      (encResponse c i).1 = .errInstr ∨ (encResponse c i).1 = .errShape ∨ (encResponse c i).1 = .errMsglen := by
  have raw : ∀ instr a, rawStatus instr a = .ok ∨ rawStatus instr a = .unsupported ∨ rawStatus instr a = .errCmd ∨
      rawStatus instr a = .errInstr ∨ rawStatus instr a = .errShape ∨ rawStatus instr a = .errMsglen := by
    intro instr a
    rcases rawStatus_legal instr a with h | h | h | h <;> simp [h]
  cases i with
  | readpos id => simp only [encResponse]; split <;> simp
  | decodeA rx => simp [isEncoderInstr] at h
  | decodeB rx => simp [isEncoderInstr] at h
  | ping id => simp [encResponse]
  | torque id on => simp [encResponse]
  | limits id a b => simp [encResponse]
  | move id a => simp [encResponse]
  | reservedCmd6 => simp [encResponse]
  | reservedCmd7 => simp [encResponse]
  | raw instr a => exact raw instr a
  | pingI a => exact raw instrPing a
  | readI a => exact raw instrRead a
  | writeI a => exact raw instrWrite a
  | regwriteI a => exact raw instrRegWrite a
  | actionI a => exact raw instrAction a
  | recoverI a => exact raw instrRecover a
  | syncwriteI a => exact raw instrSyncWrite a
  | resetI a => exact raw instrReset a

/-- The field a decoder instruction extracts (R72, R73). -/
def replyField (c : Config) : Instr → Half × List Byte
  | .decodeA rx => (fieldA c.posOrderA rx, rx)
  | .decodeB rx => (fieldB c.posOrderA rx, rx)
  | .pingI _ => (0, [])
  | .readI _ => (0, [])
  | .writeI _ => (0, [])
  | .regwriteI _ => (0, [])
  | .actionI _ => (0, [])
  | .recoverI _ => (0, [])
  | .syncwriteI _ => (0, [])
  | .resetI _ => (0, [])
  | .ping _ => (0, [])
  | .torque _ _ => (0, [])
  | .limits _ _ _ => (0, [])
  | .move _ _ => (0, [])
  | .readpos _ => (0, [])
  | .raw _ _ => (0, [])
  | .reservedCmd6 => (0, [])
  | .reservedCmd7 => (0, [])

/-- The state a decoder transaction leaves for an extracted field and its reply (R71). -/
def afterDec (r : Half × List Byte) (s : State) : State :=
  if r.2.length = 14 then afterReply .ok (some r.1) (some (remap s.cfg (rawValue s.cfg r.1))) s
  else afterReply .malformedReply none none s

/-- The decoder transaction. -/
theorem decodeReply_eq (u : Half) (rx : List Byte) (s : State) :
    (s.onBlock fun c => decodeReply c u rx) = .next (afterDec (u, rx) s) := by
  by_cases h : rx.length = 14 <;> simp only [State.onBlock, decodeReply, afterDec, replyLen, h, if_true, if_false] <;> rfl

/-- Everything a decoder instruction can do. -/
theorem exec_decoder {i : Instr} (h : isEncoderInstr i = false) (s : State) :
    exec i s = .next (afterDec (replyField s.cfg i) s) := by
  cases i with
  | decodeA rx => exact decodeReply_eq _ rx s
  | decodeB rx => exact decodeReply_eq _ rx s
  | _ => simp [isEncoderInstr] at h

/-- An encoder response keeps the configuration. -/
@[simp] theorem afterEnc_cfg (r : Status × List Byte) (s : State) : (afterEnc r s).cfg = s.cfg := by
  unfold afterEnc; split <;> rfl

/-- A decoder response keeps the configuration. -/
@[simp] theorem afterDec_cfg (r : Half × List Byte) (s : State) : (afterDec r s).cfg = s.cfg := by
  unfold afterDec; split <;> rfl

/-- The configuration is an argument of a meaning and no result of it (R17). -/
theorem exec_cfg {i : Instr} {s t : State} (h : exec i s = .next t) : t.cfg = s.cfg := by
  cases he : isEncoderInstr i
  · rw [exec_decoder he] at h; cases h; simp
  · rw [exec_encoder he] at h; cases h; simp

/-- Every instruction answers a next state. -/
theorem exec_answers (i : Instr) (s : State) : ∃ t, exec i s = .next t := by
  cases h : isEncoderInstr i
  · exact ⟨_, exec_decoder h s⟩
  · exact ⟨_, exec_encoder h s⟩

/-- A meaning is what it does to the block, packed with the configuration it was given (R17). -/
theorem exec_eq_pack (i : Instr) (s : State) : exec i s = packResult s.cfg (execUnder s.cfg i s.toBlock) := by
  obtain ⟨t, ht⟩ := exec_answers i s
  have e : execUnder s.cfg i s.toBlock = blockPart (exec i s) := rfl
  rw [e, ht, ← exec_cfg ht]
  rfl

end Sys2Proof.Machine
end

