-- ==== Sys2Proof/Laws/PerInstr.lean ====
section
/-! SUPPORT. The family RowSelect: in the request that selects an instruction, the field that selects its row holds the value
spec/opcode_table.json gives the row, at the port the row belongs to. -/

namespace Sys2Proof.Laws.RowSelect

open Sys2Proof Sys2Proof.Machine

/-- The selecting fields of a request: `cmd` and `instr` at the encoder port, `path` at the decoder port. -/
inductive Select where
  | command (cmd : BitVec 3)
  | bus (instr : Byte)
  | path (path : BitVec 1)
deriving DecidableEq, Repr

/-- The row a request selects, by the table's own numbers: frame byte 4 for RAW with a legal code, else `cmd`, or `path`. -/
def select : Request → Select
  | .enc r => if r.cmd = 5 ∧ isBusCode r.instr = true then .bus r.instr else .command r.cmd
  | .dec r => .path r.path

/-- The row's `match` value in spec/opcode_table.json. -/
def tableRow : Instr → Select
  | .pingI _ => .bus 0x01
  | .readI _ => .bus 0x02
  | .writeI _ => .bus 0x03
  | .regwriteI _ => .bus 0x04
  | .actionI _ => .bus 0x05
  | .recoverI _ => .bus 0x06
  | .syncwriteI _ => .bus 0x83
  | .resetI _ => .bus 0x0A
  | .ping _ => .command 0
  | .torque _ _ => .command 1
  | .limits _ _ _ => .command 2
  | .move _ _ => .command 3
  | .readpos _ => .command 4
  | .raw _ _ => .command 5
  | .reservedCmd6 => .command 6
  | .reservedCmd7 => .command 7
  | .decodeA _ => .path 0
  | .decodeB _ => .path 1

/-- A well-formed instruction's request selects its row. -/
def Statement (i : Instr) : Prop := i.wf = true → select (encode i) = tableRow i

theorem pingI (args : RawArgs) : Statement (.pingI args) := fun _ => rfl

theorem readI (args : RawArgs) : Statement (.readI args) := fun _ => rfl

theorem writeI (args : RawArgs) : Statement (.writeI args) := fun _ => rfl

theorem regwriteI (args : RawArgs) : Statement (.regwriteI args) := fun _ => rfl

theorem actionI (args : RawArgs) : Statement (.actionI args) := fun _ => rfl

theorem recoverI (args : RawArgs) : Statement (.recoverI args) := fun _ => rfl

theorem syncwriteI (args : RawArgs) : Statement (.syncwriteI args) := fun _ => rfl

theorem resetI (args : RawArgs) : Statement (.resetI args) := fun _ => rfl

theorem ping (id : Byte) : Statement (.ping id) := fun _ => rfl

theorem torque (id : Byte) (on : Bool) : Statement (.torque id on) := fun _ => rfl

theorem limits (id : Byte) (a b : Arg) : Statement (.limits id a b) := fun _ => rfl

theorem move (id : Byte) (a : Arg) : Statement (.move id a) := fun _ => rfl

theorem readpos (id : Byte) : Statement (.readpos id) := fun _ => rfl

theorem raw (instr : Byte) (args : RawArgs) : Statement (.raw instr args) := fun h => by
  have hb : isBusCode instr = false := by simp [Instr.wf] at h; exact h.2
  simp [select, encode, rawRequestOf, hb, tableRow]

theorem reservedCmd6 : Statement .reservedCmd6 := fun _ => rfl

theorem reservedCmd7 : Statement .reservedCmd7 := fun _ => rfl

theorem decodeA (rx : List Byte) : Statement (.decodeA rx) := fun _ => rfl

theorem decodeB (rx : List Byte) : Statement (.decodeB rx) := fun _ => rfl

end Sys2Proof.Laws.RowSelect
end

