-- ==== Sys2Proof/Laws/Step.lean ====
section
/-! SUPPORT. Everything a step can do, said once, and the induction over runs. -/

namespace Sys2Proof.Machine

/-- A latch's value does not depend on what waits to be served. -/
theorem latchValue_inputs (l : Latch) (b : Block) (rest : List Input) :
    latchValue l { b with inputs := rest } = latchValue l b := by
  cases l <;> rfl

/-- A block with an invalid configuration is refused its step (R92). -/
theorem step_invalid {s : State} (hc : configValid s.cfg = false) : step s = .refused .invalidConfig := by
  simp [step, State.onBlock, stepUnder, hc]

/-- A step with nothing waiting. -/
theorem step_idle {s : State} (hc : configValid s.cfg = true) (hi : s.inputs = []) : step s = .next s := by
  simp [step, State.onBlock, stepUnder, hc, serveNext, hi]

/-- A step that serves a request. -/
theorem step_request {s : State} {r : Request} {rest : List Input} (hc : configValid s.cfg = true)
    (hi : s.inputs = .request r :: rest) : step s = exec (decode r) { s with inputs := rest } := by
  rw [exec_eq_pack]
  simp [step, State.onBlock, stepUnder, hc, serveNext, hi]

/-- A step that serves a reset. -/
theorem step_reset {s : State} {p : Option Request} {rest : List Input} (hc : configValid s.cfg = true)
    (hi : s.inputs = .reset p :: rest) : step s = .next (afterReset { s with inputs := rest }) := by
  simp [step, State.onBlock, stepUnder, hc, serveNext, hi, resetBlock, afterReset]

/-- A step that serves a latch read. -/
theorem step_read {s : State} {l : Latch} {rest : List Input} (hc : configValid s.cfg = true)
    (hi : s.inputs = .read l :: rest) :
    step s = match latchValue l s.toBlock with
      | some v => .next { s with inputs := rest, readLog := s.readLog ++ [v] }
      | none => .fault (.latchHoldsNoValue l) := by
  have hv := latchValue_inputs l s.toBlock rest
  cases h : latchValue l s.toBlock <;>
    simp [step, State.onBlock, stepUnder, hc, serveNext, hi, readLatch, hv, h]

/-- The four things a step that answers a next state can have done. -/
theorem step_next_cases {s t : State} (h : step s = .next t) :
    (s.inputs = [] ∧ t = s) ∨
    (∃ r rest, s.inputs = .request r :: rest ∧ exec (decode r) { s with inputs := rest } = .next t) ∨
    (∃ p rest, s.inputs = .reset p :: rest ∧ t = afterReset { s with inputs := rest }) ∨
    (∃ l rest v, s.inputs = .read l :: rest ∧ latchValue l s.toBlock = some v ∧
      t = { s with inputs := rest, readLog := s.readLog ++ [v] }) := by
  cases hc : configValid s.cfg with
  | false => rw [step_invalid hc] at h; cases h
  | true =>
    cases hi : s.inputs with
    | nil => rw [step_idle hc hi] at h; cases h; exact .inl ⟨rfl, rfl⟩
    | cons input rest =>
      cases input with
      | request r => rw [step_request hc hi] at h; exact .inr (.inl ⟨r, rest, rfl, h⟩)
      | reset p => rw [step_reset hc hi] at h; cases h; exact .inr (.inr (.inl ⟨p, rest, rfl, rfl⟩))
      | read l =>
        rw [step_read hc hi] at h
        cases hl : latchValue l s.toBlock with
        | none => rw [hl] at h; cases h
        | some v => rw [hl] at h; cases h; exact .inr (.inr (.inr ⟨l, rest, v, rfl, hl, rfl⟩))

/-- The two things a step that does not answer a next state can have done: refused an invalid configuration, or served a
read of a latch that holds ⊥. -/
theorem step_stop_cases (s : State) :
    (∃ t, step s = .next t) ∨
    (configValid s.cfg = false ∧ step s = .refused .invalidConfig) ∨
    (∃ l rest, configValid s.cfg = true ∧ s.inputs = .read l :: rest ∧ latchValue l s.toBlock = none ∧
      step s = .fault (.latchHoldsNoValue l)) := by
  cases hc : configValid s.cfg with
  | false => exact .inr (.inl ⟨rfl, step_invalid hc⟩)
  | true =>
    cases hi : s.inputs with
    | nil => exact .inl ⟨_, step_idle hc hi⟩
    | cons input rest =>
      cases input with
      | request r => rw [step_request hc hi]; exact .inl (exec_answers _ _)
      | reset p => exact .inl ⟨_, step_reset hc hi⟩
      | read l =>
        rw [step_read hc hi]
        cases hl : latchValue l s.toBlock with
        | none => exact .inr (.inr ⟨l, rest, rfl, rfl, hl, rfl⟩)
        | some v => exact .inl ⟨_, rfl⟩

/-- One more step in front of a run. -/
theorem run_succ_next {n : Nat} {s u : State} (h : core.run (n + 1) s = .next u) :
    ∃ t, step s = .next t ∧ core.run n t = .next u := by
  simp only [Host.Core.run] at h
  cases hs : core.step s with
  | next t => rw [hs] at h; exact ⟨t, hs, h⟩
  | fault r => rw [hs] at h; cases h
  | refused r => rw [hs] at h; cases h

/-- What every step relates, transitively and reflexively, every run relates. -/
theorem run_induction {R : State → State → Prop} (refl : ∀ s, R s s)
    (trans : ∀ s t u, step s = .next t → R t u → R s u) :
    ∀ (n : Nat) (s u : State), core.run n s = .next u → R s u := by
  intro n
  induction n with
  | zero =>
    intro s u h
    have hu : s = u := Host.Outcome.next.inj h
    exact hu ▸ refl s
  | succ n ih =>
    intro s u h
    obtain ⟨t, hst, hrun⟩ := run_succ_next h
    exact trans s t u hst (ih t u hrun)

end Sys2Proof.Machine
end

