-- ==== Sys2Proof/Laws/Safety.lean ====
section
/-! SUPPORT. Frame streams, and latches that hold ⊥. -/

namespace Sys2Proof.Machine

/-- The empty stream is no frames. -/
theorem IsFrameStream.nil : IsFrameStream [] := ⟨[], by simp, rfl⟩

/-- A stream with one more whole frame behind it (R32). -/
theorem IsFrameStream.append {stream f : List Byte} (h : IsFrameStream stream) (hf : isFrame f = true) :
    IsFrameStream (stream ++ f) := by
  obtain ⟨frames, hall, rfl⟩ := h
  refine ⟨frames ++ [f], fun g hg => ?_, by simp⟩
  rcases List.mem_append.mp hg with hg | hg
  · exact hall g hg
  · exact (List.mem_singleton.mp hg) ▸ hf

/-- A latch holds ⊥ exactly when it has no value to hand out (R16). -/
theorem holdsBottom_iff (l : Latch) (s : State) : HoldsBottom l s ↔ latchValue l s.toBlock = none := by
  cases l <;> simp [HoldsBottom, latchValue]

end Sys2Proof.Machine
end

