-- ==== Sys2Proof/Tests/Slice0.lean ====
section
/-! SUPPORT. The model's own tests: ill-formed terms refused, words written out from the spec's encodings, single steps with
results from spec/95_test_vectors.md, and a witness for the hypotheses of each statement. -/

namespace Sys2Proof.Tests

open Sys2Proof.Machine

/-! ### WellFormed refuses -/

theorem test_wf_payload_not_plen : (Instr.writeI ⟨1, true, 42, 2, [0x58]⟩).wf = false := by decide
theorem test_wf_payload_over_port : (Instr.writeI ⟨1, true, 42, 253, List.replicate 253 0⟩).wf = false := by decide +kernel
theorem test_wf_raw_of_a_legal_code : (Instr.raw 0x83 ⟨1, false, 0, 0, []⟩).wf = false := by decide
theorem test_wf_reply_over_255_A : (Instr.decodeA (List.replicate 256 0)).wf = false := by decide +kernel
theorem test_wf_reply_over_255_B : (Instr.decodeB (List.replicate 256 0)).wf = false := by decide +kernel
theorem test_presentable_refuses : (Request.dec ⟨0, 16, padTo 255 []⟩).presentable { Config.default with rxMax := 15 } = false := by
  decide

/-! ### Requests written out from R39, R41 and R42 -/

/-- A port with some payload and nothing else driven. -/
def portOf (cmd : BitVec 3) (id : Byte) : EncRequest := { EncRequest.blank with cmd := cmd, id := id }

theorem test_decode_ping : decode (.enc (portOf 0b000 1)) = .ping 1 := by decide
theorem test_decode_torque : decode (.enc { portOf 0b001 1 with on := true }) = .torque 1 true := by decide
theorem test_decode_limits : decode (.enc { portOf 0b010 1 with a := 2000, b := -5 }) = .limits 1 2000 (-5) := by decide
theorem test_decode_move : decode (.enc { portOf 0b011 1 with a := 600 }) = .move 1 600 := by decide
theorem test_decode_readpos : decode (.enc (portOf 0b100 1)) = .readpos 1 := by decide
theorem test_decode_raw : decode (.enc { portOf 0b101 1 with instr := 0b00000111 }) = .raw 0x07 ⟨1, false, 0, 0, []⟩ := by
  decide
theorem test_decode_reserved6 : decode (.enc (portOf 0b110 1)) = .reservedCmd6 := by decide
theorem test_decode_reserved7 : decode (.enc (portOf 0b111 1)) = .reservedCmd7 := by decide
theorem test_decode_pingI : decode (.enc { portOf 0b101 1 with instr := 0b00000001 }) = .pingI ⟨1, false, 0, 0, []⟩ := by decide
theorem test_decode_readI : decode (.enc { portOf 0b101 1 with instr := 0b00000010 }) = .readI ⟨1, false, 0, 0, []⟩ := by decide
theorem test_decode_writeI :
    decode (.enc { portOf 0b101 1 with instr := 0b00000011, hasReg := true, reg := 42, plen := 2, payload := padTo 252 [2, 0x58, 9] }) =
      .writeI ⟨1, true, 42, 2, [2, 0x58]⟩ := by decide
theorem test_decode_regwriteI :
    decode (.enc { portOf 0b101 1 with instr := 0b00000100 }) = .regwriteI ⟨1, false, 0, 0, []⟩ := by decide
theorem test_decode_actionI : decode (.enc { portOf 0b101 0xFE with instr := 0b00000101 }) = .actionI ⟨0xFE, false, 0, 0, []⟩ := by
  decide
theorem test_decode_recoverI :
    decode (.enc { portOf 0b101 1 with instr := 0b00000110 }) = .recoverI ⟨1, false, 0, 0, []⟩ := by decide
theorem test_decode_syncwriteI :
    decode (.enc { portOf 0b101 1 with instr := 0b10000011 }) = .syncwriteI ⟨1, false, 0, 0, []⟩ := by decide
theorem test_decode_resetI : decode (.enc { portOf 0b101 1 with instr := 0b00001010 }) = .resetI ⟨1, false, 0, 0, []⟩ := by decide
theorem test_decode_A : decode (.dec ⟨0b0, 3, padTo 255 [1, 2, 3, 4]⟩) = .decodeA [1, 2, 3] := by decide
theorem test_decode_B : decode (.dec ⟨0b1, 3, padTo 255 [1, 2, 3, 4]⟩) = .decodeB [1, 2, 3] := by decide

/-! ### Frames written out in spec/95_test_vectors.md 2.2, and bytes that are no frame -/

theorem test_frame_pingI : decodeFrame [0xFF, 0xFF, 0x01, 0x02, 0x01, 0xFB] = .ok (.pingI ⟨1, false, 0, 0, []⟩) := by decide
theorem test_frame_readI : decodeFrame [0xFF, 0xFF, 0x01, 0x04, 0x02, 0x38, 0x02, 0xBE] = .ok (.readI ⟨1, true, 56, 1, [2]⟩) := by
  decide
theorem test_frame_writeI : decodeFrame [0xFF, 0xFF, 0x01, 0x03, 0x03, 0x2A, 0xCE] = .ok (.writeI ⟨1, true, 42, 0, []⟩) := by decide
theorem test_frame_regwriteI :
    decodeFrame [0xFF, 0xFF, 0x01, 0x05, 0x04, 0x2A, 0x02, 0x00, 0xC9] = .ok (.regwriteI ⟨1, true, 42, 2, [2, 0]⟩) := by decide
theorem test_frame_actionI : decodeFrame [0xFF, 0xFF, 0xFE, 0x02, 0x05, 0xFA] = .ok (.actionI ⟨0xFE, false, 0, 0, []⟩) := by decide
theorem test_frame_recoverI : decodeFrame [0xFF, 0xFF, 0x01, 0x02, 0x06, 0xF6] = .ok (.recoverI ⟨1, false, 0, 0, []⟩) := by decide
theorem test_frame_syncwriteI :
    decodeFrame [0xFF, 0xFF, 0xFE, 0x06, 0x83, 0x2A, 0x01, 0x02, 0x58, 0xF3] =
      .ok (.syncwriteI ⟨0xFE, true, 42, 3, [1, 2, 0x58]⟩) := by decide
theorem test_frame_resetI : decodeFrame [0xFF, 0xFF, 0x01, 0x02, 0x0A, 0xF2] = .ok (.resetI ⟨1, false, 0, 0, []⟩) := by decide
theorem test_frame_short : decodeFrame [0xFF, 0xFF, 0x01, 0x02, 0x01] = .error .tooShort := by decide
theorem test_frame_marker : decodeFrame [0xFF, 0xFE, 0x01, 0x02, 0x01, 0xFB] = .error .badMarker := by decide
theorem test_frame_msgLen : decodeFrame [0xFF, 0xFF, 0x01, 0x01, 0x01, 0xFC] = .error .badMsgLen := by decide
theorem test_frame_length : decodeFrame [0xFF, 0xFF, 0x01, 0x02, 0x01, 0xFB, 0x00] = .error .badLength := by decide
theorem test_frame_instr : decodeFrame [0xFF, 0xFF, 0x01, 0x02, 0x07, 0xF5] = .error .illegalInstr := by decide
theorem test_frame_checksum : decodeFrame [0xFF, 0xFF, 0x01, 0x02, 0x01, 0xFA] = .error .badChecksum := by decide

/-! ### Table words (the host's numbering) -/

theorem test_table_syncwrite : decodeTableWord 8 0x83 = some (.syncwriteI ⟨0, false, 0, 0, []⟩) := by decide
theorem test_table_cmd3 : decodeTableWord 3 3 = some (.move 0 0) := by decide
theorem test_table_path1 : decodeTableWord 1 1 = some (.decodeB []) := by decide
theorem test_table_none : decodeTableWord 8 0x84 = none := by decide
theorem test_withFetchWord_runs :
    step (State.reset.withFetchWord 8 0x83) = .next (afterFrame [0xFF, 0xFF, 0x00, 0x02, 0x83, 0x7A] State.reset) := rfl

/-! ### Checksum vectors (95 2.1) -/

theorem test_checksum_low_byte_FF : checksum [0xFC, 0x02, 0x01] = 0x00 := by decide
theorem test_checksum_low_byte_00 : checksum [0xFD, 0x02, 0x01] = 0xFF := by decide
theorem test_checksum_bound : checksumAcc (List.replicate 256 0xFF) = 65280 := by decide +kernel
theorem test_checksum_largest_frame : checksum ([0xFF, 0xFF, 0x03, 0xFF] ++ List.replicate 252 0xFF) = 0xFB := by decide +kernel

/-! ### One step each (95 2.2 to 2.9) -/

/-- A block with the given configuration, otherwise as at system start. -/
def blockWith (c : Config) : State := { State.reset with cfg := c }

/-- A 14-byte reply that is zero but for bytes 11 and 12. -/
def replyWith (b11 b12 : Byte) : List Byte := List.replicate 11 0 ++ [b11, b12, 0]

theorem test_ping : exec (.ping 0xFF) State.reset = .next (afterFrame [0xFF, 0xFF, 0xFF, 0x02, 0x01, 0xFD] State.reset) := rfl
theorem test_torque_on :
    exec (.torque 0 true) State.reset = .next (afterFrame [0xFF, 0xFF, 0x00, 0x04, 0x03, 0x28, 0x01, 0xCF] State.reset) := rfl
theorem test_torque_off :
    exec (.torque 0 false) State.reset = .next (afterFrame [0xFF, 0xFF, 0x00, 0x04, 0x03, 0x28, 0x00, 0xD0] State.reset) := rfl
theorem test_limits_clamped : exec (.limits 1 2000 (-5)) State.reset =
    .next (afterFrame [0xFF, 0xFF, 0x01, 0x07, 0x03, 0x2A, 0xFF, 0x03, 0x00, 0x00, 0xC8] State.reset) := rfl
theorem test_limits_not_swapped : exec (.limits 1 900 100) State.reset =
    .next (afterFrame [0xFF, 0xFF, 0x01, 0x07, 0x03, 0x2A, 0x84, 0x03, 0x64, 0x00, 0xDF] State.reset) := rfl
theorem test_move_600 : exec (.move 1 600) State.reset =
    .next (afterFrame [0xFF, 0xFF, 0x01, 0x09, 0x03, 0x2A, 0x02, 0x58, 0x00, 0x00, 0x03, 0xE8, 0x83] State.reset) := rfl
theorem test_move_least : exec (.move 1 0x80000000) State.reset =
    .next (afterFrame [0xFF, 0xFF, 0x01, 0x09, 0x03, 0x2A, 0x00, 0x00, 0x00, 0x00, 0x03, 0xE8, 0xDD] State.reset) := rfl
theorem test_readpos : exec (.readpos 0xFE) State.reset =
    .next (afterFrame [0xFF, 0xFF, 0xFE, 0x04, 0x02, 0x38, 0x02, 0xC1] State.reset) := rfl
theorem test_readpos_unsupported :
    exec (.readpos 1) (blockWith { Config.default with readposMode := .unsupported }) =
      .next (afterRefusal .unsupported (blockWith { Config.default with readposMode := .unsupported })) := rfl
theorem test_raw_write : exec (.raw 0x03 ⟨1, true, 42, 2, [2, 0x58]⟩) State.reset =
    .next (afterFrame [0xFF, 0xFF, 0x01, 0x05, 0x03, 0x2A, 0x02, 0x58, 0x72] State.reset) := rfl
theorem test_raw_three_causes : exec (.raw 0x00 ⟨1, false, 0, 255, []⟩) State.reset =
    .next (afterRefusal .errInstr State.reset) := rfl
theorem test_reserved6 : exec .reservedCmd6 State.reset = .next (afterRefusal .errCmd State.reset) := rfl
theorem test_reserved7 : exec .reservedCmd7 State.reset = .next (afterRefusal .errCmd State.reset) := rfl
theorem test_pingI_shape2 : exec (.pingI ⟨1, true, 42, 1, [1]⟩) State.reset =
    .next (afterFrame [0xFF, 0xFF, 0x01, 0x04, 0x01, 0x2A, 0x01, 0xCE] State.reset) := rfl
theorem test_pingI_payload_no_reg : exec (.pingI ⟨1, false, 0, 1, [0]⟩) State.reset =
    .next (afterRefusal .errShape State.reset) := rfl
theorem test_readI : exec (.readI ⟨1, false, 0, 0, []⟩) State.reset =
    .next (afterFrame [0xFF, 0xFF, 0x01, 0x02, 0x02, 0xFA] State.reset) := rfl
theorem test_writeI_no_payload : exec (.writeI ⟨0, true, 0, 0, []⟩) State.reset =
    .next (afterFrame [0xFF, 0xFF, 0x00, 0x03, 0x03, 0x00, 0xF9] State.reset) := rfl
theorem test_writeI_too_long : exec (.writeI ⟨1, true, 42, 253, List.replicate 252 0⟩) State.reset =
    .next (afterRefusal .errMsglen State.reset) := rfl
theorem test_regwriteI : exec (.regwriteI ⟨2, true, 42, 2, [0x01, 0xF4]⟩) State.reset =
    .next (afterFrame [0xFF, 0xFF, 0x02, 0x05, 0x04, 0x2A, 0x01, 0xF4, 0xD5] State.reset) := rfl
theorem test_actionI : exec (.actionI ⟨0xFE, false, 0, 0, []⟩) State.reset =
    .next (afterFrame [0xFF, 0xFF, 0xFE, 0x02, 0x05, 0xFA] State.reset) := rfl
theorem test_recoverI : exec (.recoverI ⟨1, false, 0, 0, []⟩) State.reset =
    .next (afterFrame [0xFF, 0xFF, 0x01, 0x02, 0x06, 0xF6] State.reset) := rfl
theorem test_syncwriteI : exec (.syncwriteI ⟨0xFE, true, 42, 3, [1, 2, 0x58]⟩) State.reset =
    .next (afterFrame [0xFF, 0xFF, 0xFE, 0x06, 0x83, 0x2A, 0x01, 0x02, 0x58, 0xF3] State.reset) := rfl
theorem test_resetI : exec (.resetI ⟨1, false, 0, 0, []⟩) State.reset =
    .next (afterFrame [0xFF, 0xFF, 0x01, 0x02, 0x0A, 0xF2] State.reset) := rfl
theorem test_decodeA_midpoint :
    exec (.decodeA (replyWith 0xF4 0x01)) (blockWith { Config.default with servoMin := 1, servoMax := 180 }) =
      .next (afterReply .ok (some 0x01F4) (some 90) (blockWith { Config.default with servoMin := 1, servoMax := 180 })) := rfl
theorem test_decodeA_short : exec (.decodeA (List.replicate 13 0)) State.reset =
    .next (afterReply .malformedReply none none State.reset) := rfl
theorem test_decodeB_signed : exec (.decodeB (replyWith 0xF4 0x01)) State.reset =
    .next (afterReply .ok (some 0xF401) (some 0) State.reset) := rfl
theorem test_decodeB_unsigned :
    exec (.decodeB (replyWith 0xF4 0x01)) (blockWith { Config.default with rawSigned := false }) =
      .next (afterReply .ok (some 0xF401) (some 1000) (blockWith { Config.default with rawSigned := false })) := rfl
theorem test_field_A_be : fieldA .be (replyWith 0x01 0xF4) = 0x01F4 := by decide
theorem test_remap_wide : remap { Config.default with servoMin := 0x80000000, servoMax := 0x7FFFFFFF } 500 = -1 := by decide
theorem test_remap_floor : remap { Config.default with servoMin := -100, servoMax := 100 } 999 = 99 := by decide

/-! ### Program text (R46) -/

theorem test_assemble_program :
    (assemble "PING    1          ; cmd=0, id=1\nRAW 0x00, 1\n\nMOVE    2, -10".toList).map (·.map decode) =
      .ok [.ping 1, .raw 0x00 ⟨1, false, 0, 0, []⟩, .move 2 (-10)] := by decide
theorem test_assemble_out_of_range : (assembleLine "PING 256".toList).map decode = .error .outOfRange := by decide
theorem test_assemble_unknown : (assembleLine "JUMP 1".toList).map decode = .error .unknownMnemonic := by decide

/-! ### Witnesses: each statement's hypotheses can be met together -/

/-- A block whose encoder has just answered `PING 1`. -/
def pinged : State := afterFrame [0xFF, 0xFF, 0x01, 0x02, 0x01, 0xFB] State.reset

/-- A block whose decoder has just answered a reply of 500. -/
def decoded : State := afterReply .ok (some 0x01F4) (some 500) State.reset

/-- `pinged` meets the invariant, whatever waits. -/
theorem inv_pinged (ins : List Input) : Inv { pinged with inputs := ins } where
  encLen_counts := rfl
  encFrame_of_ok := fun _ => (by decide : isFrame pinged.encFrame = true)
  encFrame_of_not_ok := fun h => absurd rfl h
  encStatus_legal := (by decide : pinged.encStatus ≠ .malformedReply)
  decStatus_legal := .inr (.inr rfl)
  decValues_of_ok := fun h => absurd h (by decide : pinged.decStatus ≠ .ok)
  decValues_of_not_ok := fun _ => ⟨rfl, rfl⟩
  tx_frames := ⟨[[0xFF, 0xFF, 0x01, 0x02, 0x01, 0xFB]], by decide, rfl⟩

/-- `decoded` meets the invariant, whatever waits. -/
theorem inv_decoded (ins : List Input) : Inv { decoded with inputs := ins } where
  encLen_counts := rfl
  encFrame_of_ok := fun h => absurd h (by decide : decoded.encStatus ≠ .ok)
  encFrame_of_not_ok := fun _ => rfl
  encStatus_legal := (by decide : decoded.encStatus ≠ .malformedReply)
  decStatus_legal := .inl rfl
  decValues_of_ok := fun _ =>
    ⟨0x01F4, rfl, (by decide : decoded.decPos = some (remap decoded.cfg (rawValue decoded.cfg 0x01F4)))⟩
  decValues_of_not_ok := fun h => absurd rfl h
  tx_frames := ⟨[], by decide, rfl⟩

theorem witness_DecodeOfEncodeIsIdentity :
    (Instr.writeI ⟨1, true, 42, 253, List.replicate 252 7⟩).wf = true ∧ (Instr.raw 0x00 ⟨1, false, 0, 0, []⟩).wf = true ∧
    (Instr.decodeB (List.replicate 255 7)).wf = true ∧ (Instr.limits 1 2000 (-5)).wf = true := by decide +kernel
theorem witness_UnlistedFieldsAreIgnored :
    ∃ r r' : EncRequest, r ≠ r' ∧ r.cmd = r'.cmd ∧ r.cmd = 5 ∧ r.id = r'.id ∧ r.instr = r'.instr ∧ r.hasReg = r'.hasReg ∧
      r.reg = r'.reg ∧ r.plen = r'.plen ∧ r.payload.toList.take r.plen.toNat = r'.payload.toList.take r.plen.toNat :=
  ⟨{ portOf 5 1 with plen := 1, payload := padTo 252 [7, 8] }, { portOf 5 1 with plen := 1, a := 3, payload := padTo 252 [7, 9] },
    by decide, by decide⟩
theorem witness_UnlistedFieldsAreIgnored_commands (c : BitVec 3) :
    ∃ r r' : EncRequest, r.instr ≠ r'.instr ∧ r.cmd = c ∧ r'.cmd = c ∧ r.id = r'.id ∧ r.on = r'.on ∧ r.a = r'.a ∧ r.b = r'.b :=
  ⟨portOf c 1, { portOf c 1 with instr := 3 }, (by decide : (0 : Byte) ≠ 3), rfl, rfl, rfl, rfl, rfl, rfl⟩
theorem witness_UnlistedFieldsAreIgnored_readpos :
    ∃ r r' : EncRequest, ∃ s : State, r.cmd = r'.cmd ∧ r.cmd = 4 ∧ r.id ≠ r'.id ∧ s.cfg.readposMode = .unsupported :=
  ⟨portOf 4 1, portOf 4 2, blockWith { Config.default with readposMode := .unsupported }, rfl, rfl, by decide, rfl⟩
theorem witness_RawAccepted : RawAccepted ⟨1, true, 42, 252, List.replicate 252 7⟩ ∧ RawAccepted ⟨0xFF, false, 9, 0, []⟩ :=
  ⟨⟨List.length_replicate, by decide, by decide⟩, ⟨rfl, by decide, by decide⟩⟩
theorem witness_AcceptedFrameHasOneReading :
    decodeFrame [0xFF, 0xFF, 0x01, 0x03, 0x03, 0x2A, 0xCE] = .ok (.writeI ⟨1, true, 42, 0, []⟩) := by decide
theorem witness_FrameEndIsReadFromTheFrame : isFrame [0xFF, 0xFF, 0x01, 0x02, 0x01, 0xFB] = true := by decide
theorem witness_AccumulatorHoldsTheExactSum : (List.replicate 256 (0xFF : Byte)).length ≤ 256 := by decide +kernel
theorem witness_EmittedFrameSumsToAllOnes :
    ∃ t, isEncoderInstr (.ping 1) = true ∧ exec (.ping 1) State.reset = .next t ∧ t.encStatus = .ok := ⟨_, rfl, rfl, rfl⟩
theorem witness_EncoderAnswersAWellShapedResponse : isEncoderInstr (.raw 0 ⟨1, false, 0, 0, []⟩) = true := rfl
theorem witness_BusInstructionsFrameShapeS1 :
    (Instr.resetI, 0x0A) ∈ busInstrs ∧ (⟨1, false, 0, 0, []⟩ : RawArgs).hasReg = false ∧ (⟨1, false, 0, 0, []⟩ : RawArgs).plen = 0 :=
  ⟨by simp [busInstrs], rfl, rfl⟩
theorem witness_BusInstructionsFrameShapeS2 : ∃ a : RawArgs, (Instr.syncwriteI, 0x83) ∈ busInstrs ∧
    a.hasReg = true ∧ a.plen.toNat ≤ 252 ∧ a.payload.length = a.plen.toNat ∧ a.plen = 252 :=
  ⟨⟨1, true, 42, 252, List.replicate 252 7⟩, by simp [busInstrs], rfl, by decide, List.length_replicate, rfl⟩
theorem witness_BusInstructionsRefuseBadShapes :
    (∃ a : RawArgs, a.hasReg = false ∧ a.plen ≠ 0) ∧ (∃ a : RawArgs, a.hasReg = true ∧ 252 < a.plen.toNat) :=
  ⟨⟨⟨1, false, 0, 1, [0]⟩, rfl, by decide⟩, ⟨⟨1, true, 42, 253, List.replicate 252 0⟩, rfl, by decide⟩⟩
theorem witness_RawChecksThenFrames :
    (0x82 : Byte) ∉ ([0x01, 0x02, 0x03, 0x04, 0x05, 0x06, 0x83, 0x0A] : List Byte) ∧
    (0x83 : Byte) ∈ ([0x01, 0x02, 0x03, 0x04, 0x05, 0x06, 0x83, 0x0A] : List Byte) ∧
    (∃ a : RawArgs, a.hasReg = true ∧ a.plen.toNat ≤ 252 ∧ a.payload.length = a.plen.toNat) :=
  ⟨by decide, by decide, ⟨1, true, 42, 0, []⟩, rfl, by decide, rfl⟩
theorem witness_LimitsPacksBoundsLowByteFirst :
    (1023 : Int) = max 0 (min (2000 : Arg).toInt 1023) ∧ (0 : Int) = max 0 (min (-5 : Arg).toInt 1023) := by decide
theorem witness_MovePacksPositionHighByteFirst : (600 : Int) = max 0 (min (600 : Arg).toInt 1023) := by decide
theorem witness_ReadposEmitsAReadOfTwoBytes : State.reset.cfg.readposMode = .emitRead := rfl
theorem witness_ReadposReportsUnsupported :
    (blockWith { Config.default with readposMode := .unsupported }).cfg.readposMode = .unsupported := rfl
theorem witness_ClampSaturatesAndNeverFails :
    (1023 : Arg).toInt = max 0 (min (5000 : Arg).toInt 1023) ∧ (0 : Arg).toInt = max 0 (min (-10 : Arg).toInt 1023) := by decide
theorem witness_CommandsAreRawRequests : State.reset.cfg.readposMode = .emitRead ∧ ∃ args : RawArgs,
    args = ⟨1, true, 40, 1, [if true then 1 else 0]⟩ := ⟨rfl, _, rfl⟩
theorem witness_MovePutsHighByteAtGoalPositionLow : ∃ t, exec (.move 1 600) State.reset = .next t := ⟨_, rfl⟩
theorem witness_DecodeAReadsBytesElevenAndTwelve :
    (replyWith 0xF4 0x01).length = 14 ∧ (List.replicate 13 (0 : Byte)).length ≠ 14 ∧
    0x01F4 = ((replyWith 0xF4 0x01).getD 11 0).toNat + 256 * ((replyWith 0xF4 0x01).getD 12 0).toNat := by decide
theorem witness_DecodeBReadsThemInTheOtherOrder :
    (replyWith 0x80 0x00).length = 14 ∧ (List.replicate 15 (0 : Byte)).length ≠ 14 ∧
    0x8000 = 256 * ((replyWith 0x80 0x00).getD 11 0).toNat + ((replyWith 0x80 0x00).getD 12 0).toNat := by decide
theorem witness_PathsSwapTheFieldBytes : (replyWith 0x5A 0x5A).length = 14 := by decide
theorem witness_DecoderChecksNothingButTheLength :
    ∃ rx rx' : List Byte, rx ≠ rx' ∧ rx.length = 14 ∧ rx'.length = 14 ∧ rx.getD 11 0 = rx'.getD 11 0 ∧ rx.getD 12 0 = rx'.getD 12 0 :=
  ⟨replyWith 1 2, List.replicate 11 9 ++ [1, 2, 9], by decide⟩
theorem witness_configValid : configValid Config.default = true ∧ (-1 : Int) ≤ 1001 ∧ (500 : Int) = 500 := by decide
theorem witness_OverlongReplyIsMalformed :
    configValid { Config.default with rxMax := 15 } = true ∧
    (Request.dec ⟨0, 16, padTo 255 []⟩).presentable { Config.default with rxMax := 15 } = false := by decide
theorem witness_EncoderLeavesTheDecoderAlone :
    isEncoderInstr (.ping 1) = true ∧ ∃ t, exec (.ping 1) decoded = .next t := ⟨rfl, _, rfl⟩
theorem witness_DecoderLeavesTheEncoderAlone :
    isEncoderInstr (.decodeA []) = false ∧ ∃ t, exec (.decodeA []) pinged = .next t := ⟨rfl, _, rfl⟩
theorem witness_FailedTransactionChangesOnlyItsLatches :
    (∃ t, exec .reservedCmd6 pinged = .next t ∧ t.encStatus ≠ .ok) ∧
    (∃ t, exec (.decodeB []) decoded = .next t ∧ t.decStatus ≠ .ok) := ⟨⟨_, rfl, by decide⟩, ⟨_, rfl, by decide⟩⟩
theorem witness_ResponsesDependOnRequestAndConfigurationOnly : pinged.cfg = decoded.cfg ∧ pinged ≠ decoded := by decide
theorem witness_EncoderAndDecoderCommute :
    isEncoderInstr (.move 1 600) = true ∧ isEncoderInstr (.decodeB (replyWith 1 2)) = false := ⟨rfl, rfl⟩
theorem witness_StepRunsTheDecodedRequest :
    ∃ s : State, ∃ r rest, configValid s.cfg = true ∧ s.inputs = .request r :: rest :=
  ⟨State.reset.withFetchWord 8 0x83, _, _, by decide, rfl⟩
theorem witness_StepIdlesWithNothingWaiting : configValid State.reset.cfg = true ∧ State.reset.inputs = [] := by decide
theorem witness_InvalidConfigurationHasNoStep :
    step (blockWith { Config.default with rxMax := 14 }) = .refused .invalidConfig ∧
    step (blockWith { Config.default with servoMax := 0 }) = .refused .invalidConfig := ⟨rfl, rfl⟩
theorem witness_ResetClearsTheLatchesOnly : ∃ s : State, configValid s.cfg = true ∧
    s.inputs = .reset (some (.enc (portOf 0 1))) :: [] ∧ s.encStatus = .ok :=
  ⟨{ pinged with inputs := [.reset (some (.enc (portOf 0 1)))] }, by decide, rfl, rfl⟩
theorem witness_LatchReadFaultsExactlyOnBottom :
    (∃ s : State, configValid s.cfg = true ∧ Inv s ∧ s.inputs = [.read (.encFrame 6)] ∧ s.encLen.toNat ≤ (6 : Fin 259).val) ∧
    (∃ s : State, configValid s.cfg = true ∧ Inv s ∧ s.inputs = [.read (.encFrame 5)] ∧ (5 : Fin 259).val < s.encLen.toNat) ∧
    (∃ s : State, configValid s.cfg = true ∧ Inv s ∧ s.inputs = [.read .decRaw] ∧ s.decStatus ≠ .ok) ∧
    (∃ s : State, configValid s.cfg = true ∧ Inv s ∧ s.inputs = [.read .decPos] ∧ s.decStatus ≠ .ok) ∧
    (∃ s : State, configValid s.cfg = true ∧ Inv s ∧ s.inputs = [.read .decRaw] ∧ s.decStatus = .ok) ∧
    (∃ s : State, configValid s.cfg = true ∧ Inv s ∧ s.inputs = [.read .decPos] ∧ s.decStatus = .ok) ∧
    (∃ s : State, configValid s.cfg = true ∧ Inv s ∧ s.inputs = [.read .encStatus]) ∧
    (∃ s : State, configValid s.cfg = true ∧ Inv s ∧ s.inputs = [.read .encLen]) ∧
    (∃ s : State, configValid s.cfg = true ∧ Inv s ∧ s.inputs = [.read .decStatus]) :=
  ⟨⟨{ pinged with inputs := [.read (.encFrame 6)] }, by decide, inv_pinged _, rfl, by decide⟩,
   ⟨{ pinged with inputs := [.read (.encFrame 5)] }, by decide, inv_pinged _, rfl, by decide⟩,
   ⟨{ pinged with inputs := [.read .decRaw] }, by decide, inv_pinged _, rfl, by decide⟩,
   ⟨{ pinged with inputs := [.read .decPos] }, by decide, inv_pinged _, rfl, by decide⟩,
   ⟨{ decoded with inputs := [.read .decRaw] }, by decide, inv_decoded _, rfl, rfl⟩,
   ⟨{ decoded with inputs := [.read .decPos] }, by decide, inv_decoded _, rfl, rfl⟩,
   ⟨{ pinged with inputs := [.read .encStatus] }, by decide, inv_pinged _, rfl⟩,
   ⟨{ pinged with inputs := [.read .encLen] }, by decide, inv_pinged _, rfl⟩,
   ⟨{ decoded with inputs := [.read .decStatus] }, by decide, inv_decoded _, rfl⟩⟩
theorem test_latch_read_byte : step { pinged with inputs := [.read (.encFrame 5)] } =
    .next { pinged with readLog := [.byte 0xFB] } := rfl
theorem test_latch_read_status : step { decoded with inputs := [.read .encStatus] } =
    .next { decoded with readLog := [.status 7] } := rfl
theorem witness_OnlyLatchReadsFault :
    step { State.reset with inputs := [.read (.encFrame 0)] } = .fault (.latchHoldsNoValue (.encFrame 0)) := rfl
theorem witness_BottomReadFaultsTheRunForGood :
    (∃ s : State, configValid s.cfg = true ∧ core.run 2 s = .fault (.latchHoldsNoValue .decPos)) ∧
    (∃ s t : State, configValid s.cfg = true ∧ core.run 1 s = .next t ∧ t.inputs = [.read .decPos] ∧ HoldsBottom .decPos t) :=
  ⟨⟨{ State.reset with inputs := [.read .decPos, .request (.enc (portOf 0 1))] }, by decide, rfl⟩,
   ⟨{ State.reset with inputs := [.request (.enc (portOf 0 1)), .read .decPos] }, _, by decide, rfl, rfl, rfl⟩⟩
theorem witness_StreamGrowsByWholeFrames :
    ∃ t, core.run 2 { State.reset with inputs := [.request (.enc (portOf 0 1)), .request (.enc (portOf 6 1))] } = .next t ∧
      framesOfRun 2 { State.reset with inputs := [.request (.enc (portOf 0 1)), .request (.enc (portOf 6 1))] } =
        [[0xFF, 0xFF, 0x01, 0x02, 0x01, 0xFB]] := ⟨_, rfl, rfl⟩
theorem witness_run_answers : ∃ t : State, core.run 2 (State.reset.withFetchWord 8 0x83) = .next t := ⟨_, rfl⟩
theorem witness_step_answers : ∃ t, step (State.reset.withFetchWord 8 0x83) = .next t ∧ t.encStatus = .ok := ⟨_, rfl, rfl⟩
theorem witness_StepKeepsTheInvariant :
    Inv { pinged with inputs := [.request (.enc (portOf 0 1))] } ∧
    ∃ t, step { pinged with inputs := [.request (.enc (portOf 0 1))] } = .next t := ⟨inv_pinged _, _, rfl⟩
theorem witness_StatusCodesAreDistinct : statusCode .errShape = statusCode .errShape := rfl

end Sys2Proof.Tests
end

section
/-! SUPPORT. No meaning reads `PORT_BASE` or a latency (spec/00_scope.md R5, spec/70_reset_and_hazards.md R98): at every
layer, from an instruction's response up to the block's step, the answer is the same under any values of the three. -/

namespace Sys2Proof.Machine

/-- The configuration with other values of the parameters only the host may use (R5). -/
def withHostParams (base : Int) (encLat decLat : Nat) (c : Config) : Config :=
  { c with portBase := base, encLatency := encLat, decLatency := decLat }

/-- An encoder response reads `READPOS_MODE` at most. -/
theorem encResponse_withHostParams (base : Int) (encLat decLat : Nat) (c : Config) (i : Instr) :
    encResponse (withHostParams base encLat decLat c) i = encResponse c i := by
  cases i <;> rfl

/-- A reply's field reads `POS_ORDER_A` at most. -/
theorem replyField_withHostParams (base : Int) (encLat decLat : Nat) (c : Config) (i : Instr) :
    replyField (withHostParams base encLat decLat c) i = replyField c i := by
  cases i <;> rfl

/-- What an encoder response does to the block is the same under every configuration. -/
theorem afterEnc_toBlock_cfg (r : Status × List Byte) (b : Block) (c c' : Config) :
    (afterEnc r { toBlock := b, cfg := c }).toBlock = (afterEnc r { toBlock := b, cfg := c' }).toBlock := by
  unfold afterEnc
  split <;> rfl

/-- The sign and the remap of a decoded field read the servo's range and `RAW_SIGNED` only (R74, R75). -/
theorem afterDec_toBlock_withHostParams (base : Int) (encLat decLat : Nat) (r : Half × List Byte) (b : Block) (c : Config) :
    (afterDec r { toBlock := b, cfg := withHostParams base encLat decLat c }).toBlock =
      (afterDec r { toBlock := b, cfg := c }).toBlock := by
  unfold afterDec
  split <;> rfl

theorem execUnder_withHostParams (base : Int) (encLat decLat : Nat) (c : Config) (i : Instr) (b : Block) :
    execUnder (withHostParams base encLat decLat c) i b = execUnder c i b := by
  unfold execUnder
  cases h : isEncoderInstr i with
  | false =>
    rw [exec_decoder h, exec_decoder h, replyField_withHostParams]
    exact congrArg Host.Outcome.next (afterDec_toBlock_withHostParams ..)
  | true =>
    rw [exec_encoder h, exec_encoder h, encResponse_withHostParams]
    exact congrArg Host.Outcome.next (afterEnc_toBlock_cfg ..)

theorem serveNext_withHostParams (base : Int) (encLat decLat : Nat) (c : Config) (b : Block) :
    serveNext (withHostParams base encLat decLat c) b = serveNext c b := by
  unfold serveNext
  split
  · rfl
  · exact execUnder_withHostParams ..
  · rfl
  · rfl

/-- The block's step, whether it answers, faults or is refused, is the same under any values of the three. -/
theorem stepUnder_withHostParams (base : Int) (encLat decLat : Nat) (c : Config) (b : Block) :
    stepUnder (withHostParams base encLat decLat c) b = stepUnder c b := by
  have hvalid : configValid (withHostParams base encLat decLat c) = configValid c := rfl
  rw [stepUnder, stepUnder, hvalid, serveNext_withHostParams]

/-- A packed answer is a next state only when the block's is, beside the configuration it was packed with. -/
theorem packResult_eq_next {c : Config} {r : BlockResult} {t : State} (h : packResult c r = .next t) :
    r = .next t.toBlock ∧ t.cfg = c := by
  cases r with
  | next b => cases h; exact ⟨rfl, rfl⟩
  | fault f => cases h
  | refused why => cases h

/-- Settles O50: the block's step does not read the three parameters, and the packing hands back the ones it was given. -/
theorem openHostParametersHaveNoEffect : Obligations.OpenHostParametersHaveNoEffect := by
  intro s t base encLat decLat h
  obtain ⟨hblock, hcfg⟩ := packResult_eq_next h
  have hstep := stepUnder_withHostParams base encLat decLat s.cfg s.toBlock
  calc step { s with cfg := withHostParams base encLat decLat s.cfg }
      = packResult (withHostParams base encLat decLat s.cfg)
          (stepUnder (withHostParams base encLat decLat s.cfg) s.toBlock) := rfl
    _ = .next { t with cfg := withHostParams base encLat decLat t.cfg } := by
          rw [hstep, hblock, packResult_next, hcfg]

end Sys2Proof.Machine
end

section
/-! SUPPORT. What a transaction leaves in the latches and in `TX` (spec/10_state.md R13, R16, R18, R19, R20), for every
instruction and every state. -/

namespace Sys2Proof.Machine

/-- Bytes that are one frame are 6 to 259 of them, and byte 3 counts them but for four (R35, R45). -/
theorem isFrame_length {f : List Byte} (h : isFrame f = true) :
    6 ≤ f.length ∧ f.length ≤ 259 ∧ f.length = (f.getD 3 0).toNat + 4 := by
  obtain ⟨id, msgLen, instr, x, rest, rfl, hlen⟩ := isFrame_shape h
  have hbyte : msgLen.toNat < 256 := msgLen.isLt
  simp only [List.length_cons, List.getD_cons_succ, List.getD_cons_zero]
  omega

/-- The 9 bits of `ENC_LEN` hold the length of any frame (R16). -/
theorem toNat_frameLength {f : List Byte} (h : isFrame f = true) : (BitVec.ofNat 9 f.length).toNat = f.length := by
  obtain ⟨-, hle, -⟩ := isFrame_length h
  simp only [BitVec.toNat_ofNat]
  omega

/-- The frame a response latches: the one it built when it ends `OK`, no byte otherwise (R13, R80). -/
def latchedFrame (r : Status × List Byte) : List Byte := if r.1 = .ok then r.2 else []

theorem latchedFrame_of_ok {r : Status × List Byte} (h : r.1 = .ok) : latchedFrame r = r.2 := if_pos h

theorem latchedFrame_of_ne_ok {r : Status × List Byte} (h : r.1 ≠ .ok) : latchedFrame r = [] := if_neg h

/-- An encoder response writes the three encoder latches, appends the latched frame to `TX` and does nothing else. -/
theorem afterEnc_eq (r : Status × List Byte) (s : State) :
    afterEnc r s = { s with
      encStatus := r.1
      encLen := BitVec.ofNat 9 (latchedFrame r).length
      encFrame := latchedFrame r
      tx := s.tx ++ latchedFrame r } := by
  by_cases h : r.1 = .ok
  · rw [afterEnc, if_pos h, latchedFrame_of_ok h, h]; rfl
  · rw [afterEnc, if_neg h, latchedFrame_of_ne_ok h, List.append_nil]; rfl

/-- The decoder latches a decoder response writes: its status, `DEC_RAW` and `DEC_POS` (R71). -/
def decLatches (c : Config) (r : Half × List Byte) : Status × Option Half × Option Arg :=
  if r.2.length = 14 then (.ok, some r.1, some (remap c (rawValue c r.1))) else (.malformedReply, none, none)

/-- A decoder response writes the three decoder latches and does nothing else. -/
theorem afterDec_eq (r : Half × List Byte) (s : State) :
    afterDec r s = { s with
      decStatus := (decLatches s.cfg r).1
      decRaw := (decLatches s.cfg r).2.1
      decPos := (decLatches s.cfg r).2.2 } := by
  unfold afterDec decLatches
  split <;> rfl

/-- Settles O13: the response is `encResponse`, whose status is legal and whose frame, with `OK`, is a whole one. -/
theorem encoderAnswersAWellShapedResponse : Obligations.EncoderAnswersAWellShapedResponse := by
  intro i s henc
  refine ⟨_, exec_encoder henc s, ?_⟩
  rw [afterEnc_eq]
  have hlegal := encResponse_legal s.cfg henc
  have hframe := isFrame_encResponse (c := s.cfg) (i := i)
  generalize encResponse s.cfg i = r at hlegal hframe
  refine ⟨hlegal, ?_⟩
  by_cases hok : r.1 = .ok
  · have hlen := toNat_frameLength (hframe hok)
    obtain ⟨hmin, hmax, hcount⟩ := isFrame_length (hframe hok)
    have hne : BitVec.ofNat 9 r.2.length ≠ 0 := fun h0 => by
      rw [h0] at hlen
      simp only [BitVec.ofNat_eq_ofNat, BitVec.toNat_ofNat] at hlen
      omega
    rw [latchedFrame_of_ok hok]
    refine ⟨iff_of_false hne (not_not_intro hok), hlen.symm, fun _ => ?_⟩
    rw [hlen]
    exact ⟨hmin, hmax, hcount⟩
  · rw [latchedFrame_of_ne_ok hok]
    exact ⟨iff_of_true rfl hok, rfl, fun h => absurd h hok⟩

/-- Settles O35: of all fields an encoder response writes only the encoder latches and `TX`, the latter by the latched frame. -/
theorem encoderLeavesTheDecoderAlone : Obligations.EncoderLeavesTheDecoderAlone := by
  intro i s t henc h
  rw [exec_encoder henc, afterEnc_eq] at h
  cases h
  exact ⟨rfl, rfl, rfl, rfl, rfl, rfl, rfl⟩

/-- Settles O36: a decoder response writes only the decoder latches. -/
theorem decoderLeavesTheEncoderAlone : Obligations.DecoderLeavesTheEncoderAlone := by
  intro i s t hdec h
  rw [exec_decoder hdec, afterDec_eq] at h
  cases h
  exact ⟨rfl, rfl, rfl, rfl, rfl, rfl, rfl⟩

/-- Settles O38: the response is `encResponse`, or `decLatches` of the field read, and both take the configuration and the
instruction alone. -/
theorem responsesDependOnRequestAndConfigurationOnly : Obligations.ResponsesDependOnRequestAndConfigurationOnly := by
  intro i s s' hcfg
  cases hi : isEncoderInstr i with
  | true =>
    refine ⟨_, _, exec_encoder hi s, exec_encoder hi s', fun _ => ?_, nofun⟩
    rw [afterEnc_eq, afterEnc_eq, hcfg]
    exact ⟨rfl, rfl, rfl, latchedFrame (encResponse s'.cfg i), rfl, rfl⟩
  | false =>
    refine ⟨_, _, exec_decoder hi s, exec_decoder hi s', nofun, fun _ => ?_⟩
    rw [afterDec_eq, afterDec_eq, hcfg]
    exact ⟨rfl, rfl, rfl⟩

end Sys2Proof.Machine
end

section
/-! SUPPORT. The invariant of latches and stream: it holds at system start, and every instruction and every step
keep it (spec/10_state.md R13, R16, spec/20_memory.md R32, spec/60_exceptions.md R80). -/

namespace Sys2Proof.Machine

/-- The invariant says nothing of what waits nor of the record of latch reads. -/
theorem Inv.with_inputs_readLog {s : State} (h : Inv s) (ins : List Input) (log : List LatchValue) :
    Inv { s with inputs := ins, readLog := log } where
  encLen_counts := h.encLen_counts
  encFrame_of_ok := h.encFrame_of_ok
  encFrame_of_not_ok := h.encFrame_of_not_ok
  encStatus_legal := h.encStatus_legal
  decStatus_legal := h.decStatus_legal
  decValues_of_ok := h.decValues_of_ok
  decValues_of_not_ok := h.decValues_of_not_ok
  tx_frames := h.tx_frames

/-- An encoder transaction that latches and transmits a whole frame keeps the invariant. -/
theorem Inv.afterFrame {s : State} (h : Inv s) {f : List Byte} (hf : isFrame f = true) :
    Inv (Machine.afterFrame f s) where
  encLen_counts := toNat_frameLength hf
  encFrame_of_ok := fun _ => hf
  encFrame_of_not_ok := fun hne => absurd rfl hne
  encStatus_legal := by simp
  decStatus_legal := h.decStatus_legal
  decValues_of_ok := h.decValues_of_ok
  decValues_of_not_ok := h.decValues_of_not_ok
  tx_frames := h.tx_frames.append hf

/-- A refused encoder transaction keeps the invariant. -/
theorem Inv.afterRefusal {s : State} (h : Inv s) {st : Status} (hok : st ≠ .ok) (hlegal : st ≠ .malformedReply) :
    Inv (Machine.afterRefusal st s) where
  encLen_counts := rfl
  encFrame_of_ok := fun hst => absurd hst hok
  encFrame_of_not_ok := fun _ => rfl
  encStatus_legal := hlegal
  decStatus_legal := h.decStatus_legal
  decValues_of_ok := h.decValues_of_ok
  decValues_of_not_ok := h.decValues_of_not_ok
  tx_frames := h.tx_frames

/-- A decoder response of a legal status keeps the invariant when its values are there with `OK` and only then (R71, R80). -/
theorem Inv.afterReply {s : State} (h : Inv s) {st : Status} {raw : Option Half} {pos : Option Arg}
    (hlegal : st = .ok ∨ st = .malformedReply ∨ st = .noneYet)
    (hok : st = .ok → ∃ u, raw = some u ∧ pos = some (remap s.cfg (rawValue s.cfg u)))
    (hnot : st ≠ .ok → raw = none ∧ pos = none) : Inv (Machine.afterReply st raw pos s) where
  encLen_counts := h.encLen_counts
  encFrame_of_ok := h.encFrame_of_ok
  encFrame_of_not_ok := h.encFrame_of_not_ok
  encStatus_legal := h.encStatus_legal
  decStatus_legal := hlegal
  decValues_of_ok := hok
  decValues_of_not_ok := hnot
  tx_frames := h.tx_frames

/-- A decoder transaction keeps the invariant: it latches a field and its remap, or two ⊥ (R71). -/
theorem Inv.afterDec {s : State} (h : Inv s) (r : Half × List Byte) : Inv (Machine.afterDec r s) := by
  unfold Machine.afterDec
  split
  · exact h.afterReply (.inl rfl) (fun _ => ⟨r.1, rfl, rfl⟩) (fun hne => absurd rfl hne)
  · exact h.afterReply (.inr (.inl rfl)) nofun (fun _ => ⟨rfl, rfl⟩)

/-- Empty latches with status `NONE` meet the invariant beside any stream of whole frames (R90). -/
theorem inv_afterReset {s : State} (htx : IsFrameStream s.tx) : Inv (afterReset s) where
  encLen_counts := rfl
  encFrame_of_ok := nofun
  encFrame_of_not_ok := fun _ => rfl
  encStatus_legal := by simp
  decStatus_legal := .inr (.inr rfl)
  decValues_of_ok := nofun
  decValues_of_not_ok := fun _ => ⟨rfl, rfl⟩
  tx_frames := htx

/-- No encoder instruction answers the decoder's status (R13). -/
theorem encResponse_ne_malformedReply (c : Config) {i : Instr} (h : isEncoderInstr i = true) :
    (encResponse c i).1 ≠ .malformedReply := by
  rcases encResponse_legal c h with hst | hst | hst | hst | hst | hst <;> simp [hst]

/-- Every instruction keeps the invariant. -/
theorem exec_keeps_inv {i : Instr} {s t : State} (h : Inv s) (hexec : exec i s = .next t) : Inv t := by
  cases hi : isEncoderInstr i with
  | false =>
    rw [exec_decoder hi] at hexec
    cases hexec
    exact h.afterDec _
  | true =>
    rw [exec_encoder hi] at hexec
    cases hexec
    unfold afterEnc
    split
    · exact h.afterFrame (isFrame_encResponse ‹_›)
    · exact h.afterRefusal ‹_› (encResponse_ne_malformedReply s.cfg hi)

/-- Settles O53, by the four things a step can have done. -/
theorem stepKeepsTheInvariant : Obligations.StepKeepsTheInvariant := by
  intro s t h hstep
  rcases step_next_cases hstep with ⟨-, rfl⟩ | ⟨r, rest, -, hexec⟩ | ⟨p, rest, -, rfl⟩ | ⟨l, rest, v, -, -, rfl⟩
  · exact h
  · exact exec_keeps_inv (h.with_inputs_readLog rest s.readLog) hexec
  · exact inv_afterReset h.tx_frames
  · exact h.with_inputs_readLog rest _

/-- Settles O54: the system starts in the state a reset leaves, with the empty stream. -/
theorem systemStartMeetsTheInvariant : Obligations.SystemStartMeetsTheInvariant :=
  inv_afterReset (s := State.reset) IsFrameStream.nil

end Sys2Proof.Machine
end

section
/-! SUPPORT. Latch reads in a state that meets the invariant (spec/10_state.md R16): which latches hold ⊥, and which value the
others hand out. -/

namespace Sys2Proof.Machine

/-- A read of a latch that holds ⊥ faults (R82). -/
theorem step_read_bottom {s : State} {l : Latch} {rest : List Input} (hc : configValid s.cfg = true)
    (hi : s.inputs = .read l :: rest) (hl : latchValue l s.toBlock = none) :
    step s = .fault (.latchHoldsNoValue l) := by
  rw [step_read hc hi, hl]

/-- A read of a latch that holds a value hands it out. -/
theorem step_read_value {s : State} {l : Latch} {rest : List Input} {v : LatchValue} (hc : configValid s.cfg = true)
    (hi : s.inputs = .read l :: rest) (hl : latchValue l s.toBlock = some v) :
    step s = .next { s with inputs := rest, readLog := s.readLog ++ [v] } := by
  rw [step_read hc hi, hl]

/-- A frame byte below `ENC_LEN` has a value. -/
theorem Inv.encFrame_value {s : State} (h : Inv s) {i : Fin 259} (hlt : i.val < s.encLen.toNat) :
    ∃ x, s.encFrame[i.val]? = some x ∧ latchValue (.encFrame i) s.toBlock = some (.byte x) := by
  have hin : i.val < s.encFrame.length := h.encLen_counts ▸ hlt
  exact ⟨s.encFrame[i.val], List.getElem?_eq_getElem hin, by simp [latchValue, List.getElem?_eq_getElem hin]⟩

/-- A frame byte at `ENC_LEN` or above is ⊥. -/
theorem Inv.encFrame_bottom {s : State} (h : Inv s) {i : Fin 259} (hle : s.encLen.toNat ≤ i.val) :
    latchValue (.encFrame i) s.toBlock = none :=
  (holdsBottom_iff (.encFrame i) s).mp (h.encLen_counts ▸ hle : s.encFrame.length ≤ i.val)

/-- Settles O45: by `Inv`, the length latch says which frame bytes are ⊥ and the decoder's status whether its two values
are. -/
theorem latchReadFaultsExactlyOnBottom : Obligations.LatchReadFaultsExactlyOnBottom := by
  intro s l rest hc hinv hi
  cases l with
  | encStatus => exact ⟨False.elim, fun _ => ⟨_, step_read_value hc hi rfl, rfl⟩⟩
  | encLen => exact ⟨False.elim, fun _ => ⟨_, step_read_value hc hi rfl, rfl⟩⟩
  | decStatus => exact ⟨False.elim, fun _ => ⟨_, step_read_value hc hi rfl, rfl⟩⟩
  | encFrame i =>
    refine ⟨fun hle => step_read_bottom hc hi (hinv.encFrame_bottom hle), fun hlt => ?_⟩
    obtain ⟨x, hx, hv⟩ := hinv.encFrame_value hlt
    exact ⟨_, step_read_value hc hi hv, x, hx, rfl⟩
  | decRaw =>
    refine ⟨fun hne => ?_, fun hok => ?_⟩
    · obtain ⟨hraw, -⟩ := hinv.decValues_of_not_ok hne
      exact step_read_bottom hc hi ((holdsBottom_iff .decRaw s).mp hraw)
    · obtain ⟨u, hraw, -⟩ := hinv.decValues_of_ok hok
      exact ⟨_, step_read_value hc hi (congrArg (Option.map LatchValue.raw) hraw), u, hraw, rfl⟩
  | decPos =>
    refine ⟨fun hne => ?_, fun hok => ?_⟩
    · obtain ⟨-, hpos⟩ := hinv.decValues_of_not_ok hne
      exact step_read_bottom hc hi ((holdsBottom_iff .decPos s).mp hpos)
    · obtain ⟨u, -, hpos⟩ := hinv.decValues_of_ok hok
      exact ⟨_, step_read_value hc hi (congrArg (Option.map LatchValue.pos) hpos), _, hpos, rfl⟩

end Sys2Proof.Machine
end

section
/-! SUPPORT. Whatever stands at a port decodes to a well-formed instruction (spec/10_state.md R12, R14). -/

namespace Sys2Proof

open Machine

/-- The payload RAW reads is what `plen` declares, as far as the port's 252 bytes reach (R12). -/
theorem rawArgsOf_wf (r : EncRequest) : (rawArgsOf r).wf = true := by
  simp [RawArgs.wf, rawArgsOf, payloadMax]

/-- A bus instruction is well-formed exactly when its operands are. -/
theorem busInstr_wf (a : RawArgs) : ∀ p ∈ busInstrs, (p.1 a).wf = a.wf := by
  simp [busInstrs, Instr.wf]

/-- With well-formed operands a RAW request decodes well-formed: a legal code never stays RAW (log entry 4). -/
theorem decodeRaw_wf (instr : Byte) {a : RawArgs} (h : a.wf = true) : (decodeRaw instr a).wf = true := by
  unfold decodeRaw
  cases hrow : busRow instr with
  | some row => exact (busInstr_wf a _ (mem_busInstrs hrow)).trans h
  | none =>
    have hcode : isBusCode instr = false := by rw [← busRow_isSome, hrow]; rfl
    simp [Instr.wf, h, hcode]

/-- The command select yields well-formed instructions (R41); only its row RAW carries operands that need a check. -/
theorem decodeEnc_wf (r : EncRequest) : (decodeEnc r).wf = true := by
  by_cases hraw : r.cmd = 5
  · have hdec : decodeEnc r = decodeRaw r.instr (rawArgsOf r) := by simp [decodeEnc, hraw]
    exact hdec ▸ decodeRaw_wf r.instr (rawArgsOf_wf r)
  · unfold decodeEnc
    split_ifs <;> rfl

/-- The path select yields a reply of at most the port's 255 bytes (R14, R42). -/
theorem decodeDec_wf (r : DecRequest) : (decodeDec r).wf = true := by
  unfold decodeDec
  split_ifs <;> simp [Instr.wf]

/-- Settles O3, port by port. -/
theorem everyRequestDecodesWellFormed : Obligations.EveryRequestDecodesWellFormed := by
  intro r
  cases r with
  | enc r => exact decodeEnc_wf r
  | dec r => exact decodeDec_wf r

end Sys2Proof
end

section
/-! SUPPORT. The configuration as an argument (spec/10_state.md R17), and the step's simplest cases. -/

namespace Sys2Proof.Machine

/-- A run at the host's interface is the block's run under the configuration packed beside it (log entry 1). -/
theorem run_eq_pack (n : Nat) (s : State) :
    core.run n s = packResult s.cfg ((machineUnder s.cfg).run n s.toBlock) := by
  induction n generalizing s with
  | zero => rfl
  | succ n ih =>
    have hcore : core.step s = packResult s.cfg (stepUnder s.cfg s.toBlock) := rfl
    have hunder : (machineUnder s.cfg).step s.toBlock = stepUnder s.cfg s.toBlock := rfl
    simp only [Host.Core.run, hcore, hunder]
    cases stepUnder s.cfg s.toBlock with
    | next b => exact ih { toBlock := b, cfg := s.cfg }
    | fault f => rfl
    | refused r => rfl

/-- Settles O48: each meaning packs what it does to the block, and so, step by step, does each run. -/
theorem configurationIsAnArgumentOnly : Obligations.ConfigurationIsAnArgumentOnly :=
  ⟨exec_eq_pack, run_eq_pack⟩

/-- Settles O49: a run's answer is packed with the configuration the run began with. -/
theorem configurationNeverChanges : Obligations.ConfigurationNeverChanges := by
  intro n s t h
  rw [run_eq_pack] at h
  exact (packResult_eq_next h).2

/-- Settles O40: with a request at the head, serving it is `exec` of what it decodes to. -/
theorem stepRunsTheDecodedRequest : Obligations.StepRunsTheDecodedRequest :=
  fun _ _ _ hc hi => step_request hc hi

/-- Settles O41: with an empty list there is nothing to serve. -/
theorem stepIdlesWithNothingWaiting : Obligations.StepIdlesWithNothingWaiting :=
  fun _ hc hi => step_idle hc hi

/-- Settles O44: each field of `State.reset` is the literal the rules give. -/
theorem systemStartsEmpty : Obligations.SystemStartsEmpty :=
  ⟨rfl, rfl, fun _ => rfl, rfl, rfl, rfl, rfl, rfl, rfl, rfl, rfl, rfl⟩

end Sys2Proof.Machine
end

section
/-! SUPPORT. How the TX stream grows (spec/20_memory.md R32, spec/10_state.md R18): by one instruction, by one step, over a run. -/

namespace Sys2Proof.Machine

/-- An encoder transaction that ends `OK` latches a whole frame (R13, R35). -/
theorem isFrame_encFrame_of_exec {i : Instr} {s t : State} (henc : isEncoderInstr i = true) (h : exec i s = .next t)
    (hok : t.encStatus = .ok) : isFrame t.encFrame = true := by
  rw [exec_encoder henc, afterEnc_eq] at h
  cases h
  rw [latchedFrame_of_ok hok]
  exact isFrame_encResponse hok

/-- A refused encoder transaction latches no byte (R80). -/
theorem encFrame_eq_nil_of_exec {i : Instr} {s t : State} (henc : isEncoderInstr i = true) (h : exec i s = .next t)
    (hne : t.encStatus ≠ .ok) : t.encFrame = [] := by
  rw [exec_encoder henc, afterEnc_eq] at h
  cases h
  exact latchedFrame_of_ne_ok hne

/-- A transaction of the decoder, or one that does not end `OK`, transmits nothing (R18, R20, R80). -/
theorem exec_tx_unchanged {i : Instr} {s t : State} (h : exec i s = .next t)
    (hne : ¬(isEncoderInstr i = true ∧ t.encStatus = .ok)) : t.tx = s.tx := by
  cases hi : isEncoderInstr i with
  | false =>
    obtain ⟨-, -, -, htx, -⟩ := decoderLeavesTheEncoderAlone i s t hi h
    exact htx
  | true =>
    obtain ⟨-, -, -, -, -, -, htx⟩ := encoderLeavesTheDecoderAlone i s t hi h
    rw [htx, encFrame_eq_nil_of_exec hi h fun hok => hne ⟨hi, hok⟩, List.append_nil]

/-- A step that serves a request hands over the latched frame when the request is the encoder's and ends `OK`. -/
theorem framesOfStep_request {s : State} {r : Request} {rest : List Input} (hi : s.inputs = .request r :: rest) (t : State) :
    framesOfStep s t = if isEncoderInstr (decode r) = true ∧ t.encStatus = .ok then [t.encFrame] else [] := by
  rw [framesOfStep, hi]

/-- What a step does to `TX`, beside the frames it hands over: none and `TX` as before, or the whole frame its `OK`
transaction latched and `TX` with that frame behind it (R32). -/
theorem step_tx_cases {s t : State} (h : step s = .next t) :
    (framesOfStep s t = [] ∧ t.tx = s.tx) ∨
    (framesOfStep s t = [t.encFrame] ∧ t.encStatus = .ok ∧ isFrame t.encFrame = true ∧ t.tx = s.tx ++ t.encFrame) := by
  rcases step_next_cases h with ⟨hi, rfl⟩ | ⟨r, rest, hi, hexec⟩ | ⟨p, rest, hi, rfl⟩ | ⟨l, rest, v, hi, -, rfl⟩
  · exact .inl ⟨by rw [framesOfStep, hi], rfl⟩
  · rw [framesOfStep_request hi]
    by_cases hok : isEncoderInstr (decode r) = true ∧ t.encStatus = .ok
    · obtain ⟨henc, hst⟩ := hok
      obtain ⟨-, -, -, -, -, -, htx⟩ := encoderLeavesTheDecoderAlone _ _ t henc hexec
      exact .inr ⟨if_pos ⟨henc, hst⟩, hst, isFrame_encFrame_of_exec henc hexec hst, htx⟩
    · have htx := exec_tx_unchanged hexec hok
      exact .inl ⟨if_neg hok, htx⟩
  · exact .inl ⟨by rw [framesOfStep, hi], rfl⟩
  · exact .inl ⟨by rw [framesOfStep, hi], rfl⟩

/-- The frames of a run are those of its first step, then those of the rest. -/
theorem framesOfRun_succ {s t : State} (h : step s = .next t) (n : Nat) :
    framesOfRun (n + 1) s = framesOfStep s t ++ framesOfRun n t := by
  rw [framesOfRun, h]

/-- Settles O51: the two cases of `step_tx_cases`. -/
theorem stepAppendsOneWholeFrameOrNothing : Obligations.StepAppendsOneWholeFrameOrNothing := by
  intro s t h
  rcases step_tx_cases h with ⟨-, htx⟩ | ⟨-, hok, hframe, htx⟩
  · exact .inl htx
  · exact .inr ⟨hok, hframe, htx⟩

/-- Settles O52, by induction on the run: its first step's frames, at most one, stand before those of the rest. -/
theorem streamGrowsByWholeFrames : Obligations.StreamGrowsByWholeFrames := by
  intro n
  induction n with
  | zero =>
    intro s t h
    cases h
    simp [framesOfRun]
  | succ n ih =>
    intro s u h
    obtain ⟨t, hstep, hrun⟩ := run_succ_next h
    obtain ⟨htx, hframes, hcount⟩ := ih t u hrun
    rw [framesOfRun_succ hstep]
    rcases step_tx_cases hstep with ⟨hf, hst⟩ | ⟨hf, -, hframe, hst⟩
    · rw [hf, List.nil_append, htx, hst]
      exact ⟨rfl, hframes, by omega⟩
    · rw [hf, List.singleton_append, htx, hst]
      exact ⟨by simp, List.forall_mem_cons.mpr ⟨hframe, hframes⟩, by simpa using hcount⟩

end Sys2Proof.Machine
end

section
/-! SUPPORT. The control-table cells a frame is meant for (spec/20_memory.md R22 to R28). -/

namespace Sys2Proof.Machine

/-- Byte 5 of a frame of shape S2 is its register (R37). -/
theorem frame_some_register (instr id r : Byte) (p : List Byte) : (frame instr id (some r) p).getD 5 0 = r := by
  simp [frame_some]

/-- Between the register and the checksum of a frame of shape S2 stands its payload (R37). -/
theorem frame_some_payload (instr id r : Byte) (p : List Byte) : ((frame instr id (some r) p).drop 6).dropLast = p := by
  simp [frame_some]

/-- Settles O27: MOVE's frame has register 42 and as payload the position, the time and the speed, each high byte first. -/
theorem movePutsHighByteAtGoalPositionLow : Obligations.MovePutsHighByteAtGoalPositionLow := by
  intro id a s t h
  rw [exec_encoder rfl] at h
  cases h
  have hframe : (afterEnc (encResponse s.cfg (.move id a)) s).encFrame =
      frame instrWrite id (some addrGoalPositionLow) (be16 (clamp10 a) ++ be16 moveTime ++ be16 moveSpeed) := rfl
  rw [hframe, frame_some_register, frame_some_payload]
  rfl

end Sys2Proof.Machine
end

section
/-! SUPPORT. The request encoding (spec/30_encoding.md R39, R41, R42): what `decode` makes of the requests `encode` writes. -/

namespace Sys2Proof

open Machine

/-- A port of `n` bytes hands back the bytes put on it, when they are as many as the declared length `k` and the port allow. -/
theorem padTo_take_eq_self {n k : Nat} {p : List Byte} (h : p.length = min k n) : (padTo n p).toList.take k = p := by
  rw [List.take_eq_take_min, Vector.length_toList, ← h, padTo_take n p.length p (by omega) le_rfl, List.take_length]

/-- The operands at the port are those the RAW request was written for (R12). -/
theorem decode_rawRequestOf (instr : Byte) {a : RawArgs} (h : a.wf = true) :
    decode (rawRequestOf instr a) = decodeRaw instr a := by
  have hpay : (padTo 252 a.payload).toList.take a.plen.toNat = a.payload :=
    padTo_take_eq_self (by simpa [RawArgs.wf, payloadMax] using h)
  simp [decode, rawRequestOf, decodeEnc, rawArgsOf, hpay]

/-- The reply at the port is the one the request was written for (R14). -/
theorem decode_replyRequestOf (path : BitVec 1) {rx : List Byte} (h : rx.length ≤ 255) :
    decode (replyRequestOf path rx) = if path = 0 then .decodeA rx else .decodeB rx := by
  have hlen : (BitVec.ofNat 8 rx.length).toNat = rx.length := by simp only [BitVec.toNat_ofNat]; omega
  have hrx : (padTo 255 rx).toList.take (BitVec.ofNat 8 rx.length).toNat = rx :=
    padTo_take_eq_self (by omega)
  simp only [decode, replyRequestOf, decodeDec, hrx]

/-- A RAW request with an illegal code stays RAW (R40). -/
theorem decodeRaw_of_illegal {instr : Byte} (h : isBusCode instr = false) (a : RawArgs) :
    decodeRaw instr a = .raw instr a := by
  simp [decodeRaw, busRow_eq_none h]

/-- Settles O1, row by row: a bus code selects its own row, any other code stays RAW, and the ports hand back payload and
reply whole. -/
theorem decodeOfEncodeIsIdentity : Obligations.DecodeOfEncodeIsIdentity := by
  intro i h
  cases i with
  | pingI a => exact decode_rawRequestOf _ h
  | readI a => exact decode_rawRequestOf _ h
  | writeI a => exact decode_rawRequestOf _ h
  | regwriteI a => exact decode_rawRequestOf _ h
  | actionI a => exact decode_rawRequestOf _ h
  | recoverI a => exact decode_rawRequestOf _ h
  | syncwriteI a => exact decode_rawRequestOf _ h
  | resetI a => exact decode_rawRequestOf _ h
  | raw instr a =>
    obtain ⟨hargs, hcode⟩ : a.wf = true ∧ isBusCode instr = false := by simpa [Instr.wf] using h
    exact (decode_rawRequestOf instr hargs).trans (decodeRaw_of_illegal hcode a)
  | decodeA rx => exact decode_replyRequestOf 0 (of_decide_eq_true h)
  | decodeB rx => exact decode_replyRequestOf 1 (of_decide_eq_true h)
  | ping id => rfl
  | torque id on => rfl
  | limits id a b => rfl
  | move id a => rfl
  | readpos id => rfl
  | reservedCmd6 => rfl
  | reservedCmd7 => rfl

/-- Settles O2: the rows are read off the fields of literal requests. -/
theorem portWordsSelectTheirRows : Obligations.PortWordsSelectTheirRows :=
  ⟨rfl, rfl, rfl, rfl, rfl, rfl, rfl, rfl, rfl, rfl, rfl⟩

/-- Settles O9: each literal line is assembled and its request decoded. -/
theorem programLinesWriteTheirRequests : Obligations.ProgramLinesWriteTheirRequests :=
  ⟨rfl, rfl, rfl, rfl, rfl, rfl⟩

end Sys2Proof
end

section
/-! SUPPORT. The wire encoding (spec/30_encoding.md sections 1, 2 and 5): `encodeFrame` shape by shape, `decodeFrame` on each
shape, and the two as inverses of each other. -/

namespace Sys2Proof

open Machine

/-- The mod-256 form of the checksum is the assembler's checksum (R48, R49). -/
theorem sub_foldl_add_eq_checksum (body : List Byte) : 255 - body.foldl (· + ·) 0 = checksum body := by
  rw [checksum_eq_not_sum, List.sum_eq_foldl, ← BitVec.allOnes_sub_eq_not]
  rfl

/-- The wire layout of shape S1 (R36). -/
theorem encodeFrame_of_noReg {a : RawArgs} (h : a.hasReg = false) (instr : Byte) :
    encodeFrame instr a = [0xFF, 0xFF, a.id, 2, instr, checksum [a.id, 2, instr]] := by
  rw [encodeFrame, h, sub_foldl_add_eq_checksum]
  rfl

/-- The wire layout of shape S2 (R37). -/
theorem encodeFrame_of_hasReg {a : RawArgs} (h : a.hasReg = true) (instr : Byte) :
    encodeFrame instr a = 0xFF :: 0xFF :: a.id :: (3 + a.plen) :: instr :: a.reg :: (a.payload ++
      [checksum ([a.id, 3 + a.plen, instr, a.reg] ++ a.payload)]) := by
  rw [encodeFrame, h, sub_foldl_add_eq_checksum]
  simp

/-- Accepted operands without a register carry no payload (R53). -/
theorem rawAccepted_noReg {a : RawArgs} (h : RawAccepted a) (hr : a.hasReg = false) :
    a.plen = 0 ∧ a.payload = [] := by
  obtain ⟨hlen, -, hshape⟩ := h
  have hplen := hshape hr
  exact ⟨hplen, List.eq_nil_of_length_eq_zero (by rw [hlen, hplen]; rfl)⟩

/-- The `msgLen` of shape S2 does not wrap (R38). -/
theorem toNat_msgLen {plen : Byte} (h : plen.toNat ≤ 252) : (3 + plen).toNat = 3 + plen.toNat := by
  have hthree : (3 : Byte).toNat = 3 := rfl
  rw [BitVec.toNat_add]
  omega

/-- The `msgLen` the assembler counts is the one the operands declare (R37). -/
theorem ofNat_msgLen (plen : Byte) : BitVec.ofNat 8 (3 + plen.toNat) = 3 + plen := by
  rw [BitVec.ofNat_add, BitVec.ofNat_toNat, BitVec.setWidth_eq]
  rfl

/-- With a register and a payload of the declared length a RAW request hands the assembler its operands as given (R53). -/
theorem rawFrame_eq_frame {a : RawArgs} (h : a.hasReg = true) (hlen : a.payload.length = a.plen.toNat) (instr : Byte) :
    rawFrame instr a = frame instr a.id (some a.reg) a.payload := by
  have htake : a.payload.take a.plen.toNat = a.payload := List.take_of_length_le hlen.le
  simp only [rawFrame, rawReg, rawPayload, h, if_true, htake]

/-- Settles O5, shape by shape: both sides lay out one body, and their checksums agree by `sub_foldl_add_eq_checksum`. -/
theorem assemblerWritesTheWireLayout : Obligations.AssemblerWritesTheWireLayout := by
  intro instr a h
  cases hr : a.hasReg with
  | false =>
    rw [encodeFrame_of_noReg hr]
    simp [rawFrame, rawReg, hr, frame, frameMarker]
  | true =>
    obtain ⟨hlen, -, -⟩ := h
    rw [rawFrame_eq_frame hr hlen, encodeFrame_of_hasReg hr]
    simp [frame, frameMarker, hlen, ofNat_msgLen]

/-- A frame of shape S1 reads as its instruction, with register 0 (log entry 14). -/
theorem decodeFrame_noReg {instr : Byte} {row : RawArgs → Instr} (h : busRow instr = some row) (id : Byte) :
    decodeFrame [0xFF, 0xFF, id, 2, instr, checksum [id, 2, instr]] = .ok (row ⟨id, false, 0, 0, []⟩) := by
  simp [decodeFrame, h]

/-- A frame of shape S2 reads as its instruction (R37). -/
theorem decodeFrame_hasReg {instr : Byte} {row : RawArgs → Instr} (h : busRow instr = some row) (id reg : Byte)
    {plen : Byte} {payload : List Byte} (hlen : payload.length = plen.toNat) (hmax : plen.toNat ≤ 252) :
    decodeFrame (0xFF :: 0xFF :: id :: (3 + plen) :: instr :: reg :: (payload ++
      [checksum ([id, 3 + plen, instr, reg] ++ payload)])) = .ok (row ⟨id, true, reg, plen, payload⟩) := by
  have hmsg := toNat_msgLen hmax
  have hne : 3 + plen ≠ 2 := fun h2 => by
    rw [h2] at hmsg
    simp at hmsg
    omega
  have hcount : (payload ++ [checksum ([id, 3 + plen, instr, reg] ++ payload)]).length + 6 = 3 + plen.toNat + 4 := by
    rw [List.length_append, hlen, List.length_singleton]
    omega
  have hplen : BitVec.ofNat 8 (3 + plen.toNat - 3) = plen := by
    rw [Nat.add_sub_cancel_left, BitVec.ofNat_toNat, BitVec.setWidth_eq]
  simp only [decodeFrame, h, hmsg, if_neg hne]
  rw [if_neg (by simp), if_neg (by omega), if_neg (not_not_intro hcount), List.getLast?_concat, List.dropLast_concat,
    if_pos rfl, hplen]

/-- Settles O6: in either shape the reader's equation for it applies to what the encoder lays out. -/
theorem frameReadsBackAsItsInstruction : Obligations.FrameReadsBackAsItsInstruction := by
  intro p hp a hacc
  obtain ⟨hrow, -⟩ := busInstrs_select p hp
  obtain ⟨id, hasReg, reg, plen, payload⟩ := a
  cases hasReg with
  | false =>
    obtain ⟨rfl, rfl⟩ : plen = 0 ∧ payload = [] := rawAccepted_noReg hacc rfl
    rw [encodeFrame_of_noReg rfl]
    exact decodeFrame_noReg hrow id
  | true =>
    obtain ⟨hlen, hmax, -⟩ := hacc
    rw [encodeFrame_of_hasReg rfl]
    exact decodeFrame_hasReg hrow id reg hlen hmax

/-- Settles O7: bytes that read as shape S1 or S2 are what `encodeFrame` lays out for the operands read. -/
theorem acceptedFrameHasOneReading : Obligations.AcceptedFrameHasOneReading := by
  intro bytes i h
  obtain ⟨id, msgLen, instr, x, rest, row, rfl, hrow, hlen, hshape⟩ := decodeFrame_eq_ok h
  refine ⟨(row, instr), mem_busInstrs hrow, ?_⟩
  rcases hshape with ⟨rfl, rfl, rfl⟩ | ⟨-, hlast, rfl⟩
  · have hnil : rest = [] := List.eq_nil_of_length_eq_zero (by simpa using hlen)
    refine ⟨⟨id, false, 0, 0, []⟩, ⟨rfl, Nat.zero_le 252, fun _ => rfl⟩, rfl, ?_⟩
    rw [encodeFrame_of_noReg rfl, hnil]
  · have hrest := List.dropLast_append_getLast? _ hlast
    have hpay : rest.dropLast.length + 1 = rest.length := by
      simpa only [List.length_append, List.length_singleton] using congrArg List.length hrest
    have hbyte := msgLen.isLt
    have hplen : (BitVec.ofNat 8 (msgLen.toNat - 3)).toNat = msgLen.toNat - 3 := by
      rw [BitVec.toNat_ofNat]
      omega
    have hmsg : 3 + BitVec.ofNat 8 (msgLen.toNat - 3) = msgLen := by
      apply BitVec.eq_of_toNat_eq
      rw [toNat_msgLen (by omega)]
      omega
    have hacc : RawAccepted ⟨id, true, x, BitVec.ofNat 8 (msgLen.toNat - 3), rest.dropLast⟩ :=
      ⟨by simp only; omega, by simp only; omega, by simp⟩
    refine ⟨_, hacc, rfl, ?_⟩
    rw [encodeFrame_of_hasReg rfl, hmsg, hrest]

/-- Settles O8: byte 3 of a frame counts its bytes but for four, so the receiver's cut is at the frame's end. -/
theorem frameEndIsReadFromTheFrame : Obligations.FrameEndIsReadFromTheFrame := by
  intro f rest h
  obtain ⟨id, msgLen, instr, x, tail, rfl, hlen⟩ := isFrame_shape h
  have hend : msgLen.toNat + 4 = (0xFF :: 0xFF :: id :: msgLen :: instr :: x :: tail).length := by
    simp only [List.length_cons]
    omega
  have hfits : msgLen.toNat + 4 ≤ (0xFF :: 0xFF :: id :: msgLen :: instr :: x :: tail ++ rest).length := by
    rw [List.length_append]
    omega
  simp only [List.cons_append] at hfits
  simp only [List.cons_append, splitFrame]
  rw [if_pos ⟨trivial, trivial, hfits⟩, hend, List.splitAt_eq]
  simp

end Sys2Proof
end

section
/-! SUPPORT. What an accepted RAW request does, under whichever name it is decoded (spec/40_framing_checksum.md R53,
spec/30_encoding.md R36, R37, R47), and the refusal of the reserved commands (R62). -/

namespace Sys2Proof.Machine

/-- An accepted RAW request latches and transmits its frame (R53). -/
theorem rawRequest_accepted {instr : Byte} {a : RawArgs} (h : rawStatus instr a = .ok) (s : State) :
    (s.onBlock fun _ => rawRequest instr a) = .next (afterFrame (rawFrame instr a) s) := by
  rw [rawRequest_eq, afterEnc, if_pos h]

/-- The frame of a RAW request without a register (R36). -/
theorem rawFrame_of_noReg {a : RawArgs} (h : a.hasReg = false) (instr : Byte) :
    rawFrame instr a = [0xFF, 0xFF, a.id, 2, instr, ~~~(a.id + 2 + instr)] := by
  simp [rawFrame, rawReg, h, frame_none]

/-- The frame of a RAW request with a register, whose payload has the declared length (R37). -/
theorem rawFrame_of_hasReg {a : RawArgs} (h : a.hasReg = true) (hlen : a.payload.length = a.plen.toNat) (instr : Byte) :
    rawFrame instr a = [0xFF, 0xFF, a.id, 3 + a.plen, instr, a.reg] ++ a.payload ++
      [~~~(a.id + (3 + a.plen) + instr + a.reg + a.payload.sum)] := by
  rw [rawFrame_eq_frame h hlen, frame_some, hlen, ofNat_msgLen]

/-- Settles O14: without register and payload the request is accepted, and its frame is shape S1. -/
theorem busInstructionsFrameShapeS1 : Obligations.BusInstructionsFrameShapeS1 := by
  intro p hp a s hr hplen
  obtain ⟨-, hcode⟩ := busInstrs_select p hp
  have hok : rawStatus p.2 a = .ok := (rawStatus_eq_ok p.2 a).mpr ⟨hcode, fun _ => hplen, by simp [hr]⟩
  rw [exec_busInstr hp, rawRequest_accepted hok, rawFrame_of_noReg hr]

/-- Settles O15: with a register and at most 252 payload bytes the request is accepted, and its frame is shape S2. -/
theorem busInstructionsFrameShapeS2 : Obligations.BusInstructionsFrameShapeS2 := by
  intro p hp a s hr hmax hlen
  obtain ⟨-, hcode⟩ := busInstrs_select p hp
  have hok : rawStatus p.2 a = .ok := (rawStatus_eq_ok p.2 a).mpr ⟨hcode, by simp [hr], fun _ => hmax⟩
  rw [exec_busInstr hp, rawRequest_accepted hok, rawFrame_of_hasReg hr hlen]

/-- Settles O24: both reserved values raise `ERR_CMD` before any field is read. -/
theorem reservedCommandsAnswerErrCmd : Obligations.ReservedCommandsAnswerErrCmd :=
  fun s => ⟨raiseEnc_eq .errCmd s, raiseEnc_eq .errCmd s⟩

/-- A RAW request does what the instruction RAW does, whatever row its code decodes to (log entry 4). -/
theorem exec_decode_rawRequestOf (instr : Byte) {a : RawArgs} (h : a.wf = true) (s : State) :
    exec (decode (rawRequestOf instr a)) s = exec (.raw instr a) s := by
  rw [decode_rawRequestOf instr h]
  exact exec_decodeRaw instr a s

/-- An instruction that emits an accepted RAW request's frame does what RAW does with that request, and so does what the
request decodes to (R47). -/
theorem exec_eq_raw_of_frame {i : Instr} {instr : Byte} {a : RawArgs} {s : State} (hwf : a.wf = true)
    (hok : rawStatus instr a = .ok) (h : exec i s = .next (afterFrame (rawFrame instr a) s)) :
    exec i s = exec (.raw instr a) s ∧ exec i s = exec (decode (rawRequestOf instr a)) s := by
  have hraw : exec i s = exec (.raw instr a) s := h.trans (rawRequest_accepted hok s).symm
  exact ⟨hraw, hraw.trans (exec_decode_rawRequestOf instr hwf s).symm⟩

/-- An instruction that emits a frame of shape S2 is the RAW request with that frame's code, register and payload (R47). -/
theorem exec_eq_raw_of_frame_some {i : Instr} {instr id reg plen : Byte} {p : List Byte} {s : State}
    (hcode : isBusCode instr = true) (hlen : p.length = plen.toNat) (hmax : plen.toNat ≤ 252)
    (h : exec i s = .next (afterFrame (frame instr id (some reg) p) s)) :
    exec i s = exec (.raw instr ⟨id, true, reg, plen, p⟩) s ∧
    exec i s = exec (decode (rawRequestOf instr ⟨id, true, reg, plen, p⟩)) s := by
  have hwf : RawArgs.wf ⟨id, true, reg, plen, p⟩ = true := by simp [RawArgs.wf, payloadMax, hlen, hmax]
  refine exec_eq_raw_of_frame hwf ((rawStatus_eq_ok _ _).mpr ⟨hcode, nofun, fun _ => hmax⟩) ?_
  rw [rawFrame_eq_frame rfl hlen]
  exact h

/-- READPOS in `EMIT_READ` mode emits its Read request (R67). -/
theorem exec_readpos_emitRead {s : State} (h : s.cfg.readposMode = .emitRead) (id : Byte) :
    exec (.readpos id) s = .next (afterFrame (frame instrRead id (some addrPresentPositionLow) [readposCount]) s) := by
  rw [exec_encoder rfl, encResponse, h]
  rfl

/-- MOVE's frame, its constant time and speed bytes written out (R28, R66). -/
theorem exec_move (id : Byte) (a : Arg) (s : State) :
    exec (.move id a) s = .next (afterFrame
      (frame instrWrite id (some addrGoalPositionLow) (be16 (clamp10 a) ++ [0x00, 0x00, 0x03, 0xE8])) s) := by
  have hconst : be16 moveTime ++ be16 moveSpeed = [0x00, 0x00, 0x03, 0xE8] := by decide
  rw [← hconst, ← List.append_assoc]
  rfl

/-- Settles O26: each command emits the frame RAW builds from its code, register and packed payload. -/
theorem commandsAreRawRequests : Obligations.CommandsAreRawRequests := by
  rintro id on a b s _ _ _ rfl rfl rfl
  obtain ⟨hping, hping'⟩ :=
    exec_eq_raw_of_frame (i := .ping id) (instr := 0x01) (a := ⟨id, false, 0, 0, []⟩) rfl rfl (emitFrame_eq _ s)
  obtain ⟨htorque, htorque'⟩ :=
    exec_eq_raw_of_frame_some (i := .torque id on) (plen := 1) rfl rfl (by decide) (emitFrame_eq _ s)
  obtain ⟨hlimits, hlimits'⟩ :=
    exec_eq_raw_of_frame_some (i := .limits id a b) (plen := 4) rfl rfl (by decide) (emitFrame_eq _ s)
  obtain ⟨hmove, hmove'⟩ := exec_eq_raw_of_frame_some (plen := 6) rfl rfl (by decide) (exec_move id a s)
  exact ⟨hping, hping', htorque, htorque', hlimits, hlimits', hmove, hmove', fun hmode =>
    exec_eq_raw_of_frame_some (plen := 1) rfl rfl (by decide) (exec_readpos_emitRead hmode id)⟩

end Sys2Proof.Machine
end

section
/-! SUPPORT. The checksum as a number (spec/40_framing_checksum.md R48 to R51): what the checksum byte is, when the accumulator
is exact, and the sum of a whole frame from `id` on. -/

namespace Sys2Proof.Machine

/-- Settles O10: the accumulator is the byte sum mod 2^16, and its complement's low byte is 255 less its own low byte. -/
theorem checksumComplementsTheSum : Obligations.ChecksumComplementsTheSum := by
  intro s
  simp only [checksum, BitVec.extractLsb'_toNat, BitVec.toNat_not, checksumAcc_toNat]
  omega

/-- No byte is above 255, so `n` bytes sum to at most `255 n`. -/
theorem sum_bytes_le (s : List Byte) : (s.map (·.toNat)).sum ≤ s.length * 255 := by
  have hbyte : ∀ n ∈ s.map (·.toNat), n ≤ 255 := by
    intro n hn
    obtain ⟨b, -, rfl⟩ := List.mem_map.mp hn
    exact Nat.le_of_lt_succ b.isLt
  simpa using List.sum_le_card_nsmul _ 255 hbyte

/-- Settles O11: 256 bytes sum to at most 65280, below 2^16. -/
theorem accumulatorHoldsTheExactSum : Obligations.AccumulatorHoldsTheExactSum := by
  intro s hlen
  have hsum := sum_bytes_le s
  rw [checksumAcc_toNat, Nat.mod_eq_of_lt (by omega)]

/-- Bytes with their checksum behind them sum to 0xFF mod 256 (R51). -/
theorem sum_concat_checksum (body : List Byte) : ((body ++ [checksum body]).map (·.toNat)).sum % 256 = 255 := by
  have hcheck := checksumComplementsTheSum body
  simp only [List.map_append, List.sum_append, List.map_singleton, List.sum_singleton, hcheck]
  omega

/-- Behind the marker of a whole frame stand its body and the body's checksum (R35, R52). -/
theorem isFrame_drop_marker {f : List Byte} (h : isFrame f = true) : ∃ body, f.drop 2 = body ++ [checksum body] := by
  unfold isFrame at h
  cases hd : decodeFrame f with
  | error e => simp [hd, Except.toBool] at h
  | ok i =>
    obtain ⟨id, msgLen, instr, x, rest, row, rfl, -, hlen, hshape⟩ := decodeFrame_eq_ok hd
    rcases hshape with ⟨rfl, rfl, -⟩ | ⟨-, hlast, -⟩
    · have hnil : rest = [] := List.eq_nil_of_length_eq_zero (by simpa using hlen)
      exact ⟨[id, 2, instr], by rw [hnil]; rfl⟩
    · refine ⟨[id, msgLen, instr, x] ++ rest.dropLast, ?_⟩
      rw [List.append_assoc, List.dropLast_append_getLast? _ hlast]
      rfl

/-- Settles O12: an `OK` answer latches a whole frame, whose bytes behind the marker end in their own checksum. -/
theorem emittedFrameSumsToAllOnes : Obligations.EmittedFrameSumsToAllOnes := by
  intro i s t henc hexec hok
  obtain ⟨body, hbody⟩ := isFrame_drop_marker (isFrame_encFrame_of_exec henc hexec hok)
  rw [hbody]
  exact sum_concat_checksum body

end Sys2Proof.Machine
end

section
/-! SUPPORT. The three checks of a RAW request (spec/40_framing_checksum.md R53, spec/60_exceptions.md R80, R81), under its own
name and under the bus instructions'. -/

namespace Sys2Proof.Machine

/-- The legal codes are the eight of R39, written out. -/
theorem isBusCode_iff_mem (instr : Byte) :
    isBusCode instr = true ↔ instr ∈ [0x01, 0x02, 0x03, 0x04, 0x05, 0x06, 0x83, 0x0A] :=
  List.contains_iff_mem

/-- The first check: an illegal code, whatever the shape. -/
theorem rawStatus_of_illegal {instr : Byte} (h : isBusCode instr = false) (a : RawArgs) :
    rawStatus instr a = .errInstr := by
  rw [rawStatus, if_pos h]

/-- The second check: a legal code with a payload and no register. -/
theorem rawStatus_of_payload_noReg {instr : Byte} {a : RawArgs} (hcode : isBusCode instr = true) (hr : a.hasReg = false)
    (hplen : a.plen ≠ 0) : rawStatus instr a = .errShape := by
  simpa [rawStatus, hcode, hr] using hplen

/-- The third check: a legal code with a register and a payload over `PAYLOAD_MAX`. -/
theorem rawStatus_of_overlong {instr : Byte} {a : RawArgs} (hcode : isBusCode instr = true) (hr : a.hasReg = true)
    (hlong : 252 < a.plen.toNat) : rawStatus instr a = .errMsglen := by
  simp [rawStatus, payloadMax, hcode, hr, hlong]

/-- A RAW request that fails a check is refused with that check's status (R80). -/
theorem rawRequest_refused {instr : Byte} {a : RawArgs} {st : Status} (h : rawStatus instr a = st) (hne : st ≠ .ok)
    (s : State) : (s.onBlock fun _ => rawRequest instr a) = .next (afterRefusal st s) := by
  rw [rawRequest_eq, h, afterEnc, if_neg hne]

/-- Settles O16: the code is legal, so the shape check, or with a register the length check, is the first to fail. -/
theorem busInstructionsRefuseBadShapes : Obligations.BusInstructionsRefuseBadShapes := by
  intro p hp a s
  obtain ⟨-, hcode⟩ := busInstrs_select p hp
  rw [exec_busInstr hp]
  exact ⟨fun hr hplen => rawRequest_refused (rawStatus_of_payload_noReg hcode hr hplen) nofun s,
    fun hr hlong => rawRequest_refused (rawStatus_of_overlong hcode hr hlong) nofun s⟩

/-- RAW with a legal code does what that code's bus instruction does (log entry 4). -/
theorem exec_raw_eq_busInstr {p : (RawArgs → Instr) × Byte} (hp : p ∈ busInstrs) (a : RawArgs) (s : State) :
    exec (.raw p.2 a) s = exec (p.1 a) s :=
  (exec_busInstr hp a s).symm

/-- Settles O17: an illegal code fails the first check; RAW with a legal one is that code's bus instruction, whose refusals
and frames are O16, O14 and O15. -/
theorem rawChecksThenFrames : Obligations.RawChecksThenFrames := by
  intro instr a s
  rw [← isBusCode_iff_mem, Bool.not_eq_true]
  refine ⟨fun hcode => rawRequest_refused (rawStatus_of_illegal hcode a) nofun s, fun hcode => ?_⟩
  obtain ⟨row, hrow⟩ := busRow_eq_some hcode
  have hp := mem_busInstrs hrow
  obtain ⟨hshape, hlength⟩ := busInstructionsRefuseBadShapes _ hp a s
  rw [exec_raw_eq_busInstr hp]
  exact ⟨hshape, busInstructionsFrameShapeS1 _ hp a s, hlength, busInstructionsFrameShapeS2 _ hp a s⟩

end Sys2Proof.Machine
end

section
/-! SUPPORT. The frames of the commands, byte for byte (spec/41_commands.md R63 to R69, spec/40_framing_checksum.md R52). -/

namespace Sys2Proof.Machine

/-- The low byte the packer sends of a clamped argument (R43, R44). -/
theorem lowByte_clamp10 {x : Arg} {v : Int} (h : v = max 0 (min x.toInt 1023)) :
    lowByte (clamp10 x) = BitVec.ofInt 8 (v % 256) := by
  have hv := clamp10_toNat x
  apply BitVec.eq_of_toNat_eq
  rw [lowByte_toNat, BitVec.toNat_ofInt]
  omega

/-- The high byte the packer sends of a clamped argument (R43, R44). -/
theorem highByte_clamp10 {x : Arg} {v : Int} (h : v = max 0 (min x.toInt 1023)) :
    highByte (clamp10 x) = BitVec.ofInt 8 (v / 256) := by
  have hv := clamp10_toNat x
  apply BitVec.eq_of_toNat_eq
  rw [highByte_toNat, BitVec.toNat_ofInt]
  omega

/-- LIMITS emits one frame, its bounds packed by the clamp (R65). -/
theorem exec_limits (id : Byte) (a b : Arg) (s : State) :
    exec (.limits id a b) s = .next (afterFrame
      (frame instrWrite id (some addrGoalPositionLow) (le16 (clamp10 a) ++ le16 (clamp10 b))) s) :=
  emitFrame_eq _ s

/-- Settles O20: the payload is the two clamped bounds, each low byte first, and the sum of a frame's bytes does not depend on
how it is bracketed. -/
theorem limitsPacksBoundsLowByteFirst : Obligations.LimitsPacksBoundsLowByteFirst := by
  intro id a b s lo hi hlo hhi
  rw [exec_limits, frame_some, ← lowByte_clamp10 hlo, ← highByte_clamp10 hlo, ← lowByte_clamp10 hhi, ← highByte_clamp10 hhi]
  simp [le16, instrWrite, addrGoalPositionLow, BitVec.add_assoc]

/-- Settles O21: the payload is the clamped position, high byte first, and the four constant bytes. -/
theorem movePacksPositionHighByteFirst : Obligations.MovePacksPositionHighByteFirst := by
  intro id a s p hp
  rw [exec_move, frame_some, ← lowByte_clamp10 hp, ← highByte_clamp10 hp]
  simp [be16, instrWrite, addrGoalPositionLow, BitVec.add_assoc]

/-- Settles O25: the packer sees an argument through its clamp only, and an emitted frame is an `OK` answer. -/
theorem clampSaturatesAndNeverFails : Obligations.ClampSaturatesAndNeverFails := by
  intro id a a' b b' s ha hb
  refine ⟨?_, ?_, ⟨_, exec_move id a s, rfl⟩, ⟨_, exec_limits id a b s, rfl⟩⟩
  · rw [exec_move, exec_move, clamp10_congr ha]
  · rw [exec_limits, exec_limits, clamp10_congr ha, clamp10_congr hb]

/-- Settles O18: a frame of shape S1 with code 1. -/
theorem pingFramesEveryId : Obligations.PingFramesEveryId := by
  intro id s
  have hexec : exec (.ping id) s = .next (afterFrame (frame instrPing id none []) s) := emitFrame_eq _ s
  rw [hexec, frame_none]
  simp [instrPing, BitVec.add_assoc]

/-- Settles O19: a frame of shape S2 with register 40 and the one payload byte 0 or 1. -/
theorem torqueWritesTorqueEnable : Obligations.TorqueWritesTorqueEnable := by
  intro id on s
  have hexec : exec (.torque id on) s =
      .next (afterFrame (frame instrWrite id (some addrTorqueEnable) [if on then 1 else 0]) s) := emitFrame_eq _ s
  rw [hexec, frame_some]
  simp [instrWrite, addrTorqueEnable, BitVec.add_assoc]

/-- Settles O22: a frame of shape S2 with register 56 and the payload byte 2; 4, 2, 56 and 2 sum to 64. -/
theorem readposEmitsAReadOfTwoBytes : Obligations.ReadposEmitsAReadOfTwoBytes := by
  intro id s hmode
  rw [exec_readpos_emitRead hmode, frame_some]
  simp [instrRead, addrPresentPositionLow, readposCount, BitVec.add_assoc]

/-- Settles O23: in this mode READPOS's response is a refusal, whatever the id. -/
theorem readposReportsUnsupported : Obligations.ReadposReportsUnsupported := by
  intro id s hmode
  rw [exec_encoder rfl, encResponse, hmode]
  rfl

end Sys2Proof.Machine
end

section
/-! SUPPORT. The fields a command lists (spec/41_commands.md R70, spec/30_encoding.md R41): what each value of `cmd` decodes to. -/

namespace Sys2Proof

open Machine

/-- `cmd` 0 reads `id` (R41, R63). -/
theorem decode_cmd_ping {r : EncRequest} (h : r.cmd = 0) : decode (.enc r) = .ping r.id := by
  simp [decode, decodeEnc, h]

/-- `cmd` 1 reads `id` and `on` (R41, R64). -/
theorem decode_cmd_torque {r : EncRequest} (h : r.cmd = 1) : decode (.enc r) = .torque r.id r.on := by
  simp [decode, decodeEnc, h]

/-- `cmd` 2 reads `id`, `a` and `b` (R41, R65). -/
theorem decode_cmd_limits {r : EncRequest} (h : r.cmd = 2) : decode (.enc r) = .limits r.id r.a r.b := by
  simp [decode, decodeEnc, h]

/-- `cmd` 3 reads `id` and `a` (R41, R66). -/
theorem decode_cmd_move {r : EncRequest} (h : r.cmd = 3) : decode (.enc r) = .move r.id r.a := by
  simp [decode, decodeEnc, h]

/-- `cmd` 4 reads `id` (R41, R67). -/
theorem decode_cmd_readpos {r : EncRequest} (h : r.cmd = 4) : decode (.enc r) = .readpos r.id := by
  simp [decode, decodeEnc, h]

/-- `cmd` 5 reads the instruction byte and RAW's operands (R41, R53). -/
theorem decode_cmd_raw {r : EncRequest} (h : r.cmd = 5) : decode (.enc r) = decodeRaw r.instr (rawArgsOf r) := by
  simp [decode, decodeEnc, h]

/-- `cmd` 6 reads no field (R41, R62). -/
theorem decode_cmd_reserved6 {r : EncRequest} (h : r.cmd = 6) : decode (.enc r) = .reservedCmd6 := by
  simp [decode, decodeEnc, h]

/-- `cmd` 7 reads no field (R41, R62). -/
theorem decode_cmd_reserved7 {r : EncRequest} (h : r.cmd = 7) : decode (.enc r) = .reservedCmd7 := by
  simp [decode, decodeEnc, h]

/-- RAW's operands are the listed fields and the first `plen` payload bytes (R12, R53). -/
theorem rawArgsOf_congr {r r' : EncRequest} (hid : r.id = r'.id) (hhas : r.hasReg = r'.hasReg) (hreg : r.reg = r'.reg)
    (hplen : r.plen = r'.plen) (hpay : r.payload.toList.take r.plen.toNat = r'.payload.toList.take r.plen.toNat) :
    rawArgsOf r = rawArgsOf r' := by
  rw [rawArgsOf, rawArgsOf, hpay, hid, hhas, hreg, hplen]

/-- Settles O4: each command decodes to an instruction that holds its listed fields only; READPOS in `UNSUPPORTED` mode
answers one refusal for every id. -/
theorem unlistedFieldsAreIgnored : Obligations.UnlistedFieldsAreIgnored := by
  intro r r' s hcmd hfields
  rcases hfields with ⟨h, hid⟩ | ⟨h, hid, hon⟩ | ⟨h, hid, ha, hb⟩ | ⟨h, hid, ha⟩ | ⟨h, hid | hmode⟩ |
    ⟨h, hid, hinstr, hhas, hreg, hplen, hpay⟩ | h | h
  · rw [decode_cmd_ping h, decode_cmd_ping (hcmd ▸ h), hid]
  · rw [decode_cmd_torque h, decode_cmd_torque (hcmd ▸ h), hid, hon]
  · rw [decode_cmd_limits h, decode_cmd_limits (hcmd ▸ h), hid, ha, hb]
  · rw [decode_cmd_move h, decode_cmd_move (hcmd ▸ h), hid, ha]
  · rw [decode_cmd_readpos h, decode_cmd_readpos (hcmd ▸ h), hid]
  · rw [decode_cmd_readpos h, decode_cmd_readpos (hcmd ▸ h), readposReportsUnsupported _ s hmode,
      readposReportsUnsupported _ s hmode]
  · rw [decode_cmd_raw h, decode_cmd_raw (hcmd ▸ h), hinstr, rawArgsOf_congr hid hhas hreg hplen hpay]
  · rw [decode_cmd_reserved6 h, decode_cmd_reserved6 (hcmd ▸ h)]
  · rw [decode_cmd_reserved7 h, decode_cmd_reserved7 (hcmd ▸ h)]

end Sys2Proof
end

section
/-! SUPPORT. The reply decoder (spec/42_reply_decoder.md R71 to R76): the two paths' fields as numbers, what a decoder
transaction answers for a reply of 14 bytes and for any other, and the ends of the remap. -/

namespace Sys2Proof.Machine

/-- Low byte first, the field is the first byte plus 256 times the second (R72). -/
theorem readField_le_toNat (first second : Byte) :
    (readField .le first second).toNat = first.toNat + 256 * second.toNat := by
  rw [readField, joinBytes_toNat, Nat.add_comm]

/-- High byte first, the field is 256 times the first byte plus the second (R72). -/
theorem readField_be_toNat (first second : Byte) :
    (readField .be first second).toNat = 256 * first.toNat + second.toNat :=
  joinBytes_toNat first second

/-- Reading two bytes in the opposite order makes the high byte the low one. -/
theorem lowByte_readField_swap (order : ByteOrder) (a b : Byte) :
    lowByte (readField order b a) = highByte (readField order a b) := by
  cases order <;> simp [readField]

/-- A field determines its two bytes. -/
theorem joinBytes_inj {hi lo hi' lo' : Byte} : joinBytes hi lo = joinBytes hi' lo' ↔ hi = hi' ∧ lo = lo' where
  mp h := ⟨by simpa using congrArg highByte h, by simpa using congrArg lowByte h⟩
  mpr := by rintro ⟨rfl, rfl⟩; rfl

/-- Two bytes read alike in both orders exactly when they are equal. -/
theorem readField_swap_iff (order : ByteOrder) (a b : Byte) : readField order a b = readField order b a ↔ a = b := by
  cases order <;> rw [readField, readField, joinBytes_inj, eq_comm (a := b), and_self]

/-- Settles O30: path B reads path A's two bytes, second one first. -/
theorem pathsSwapTheFieldBytes : Obligations.PathsSwapTheFieldBytes := by
  intro order rx hlen
  rw [fieldA_eq, fieldB_eq order rx hlen]
  exact ⟨lowByte_readField_swap order _ _, (lowByte_readField_swap order _ _).symm, readField_swap_iff order _ _⟩

/-- DECODE on path A answers for its own field (R71, R72). -/
theorem exec_decodeA (rx : List Byte) (s : State) :
    exec (.decodeA rx) s = .next (afterDec (fieldA s.cfg.posOrderA rx, rx) s) :=
  exec_decoder rfl s

/-- DECODE on path B answers for its own field (R71, R73). -/
theorem exec_decodeB (rx : List Byte) (s : State) :
    exec (.decodeB rx) s = .next (afterDec (fieldB s.cfg.posOrderA rx, rx) s) :=
  exec_decoder rfl s

/-- A reply that is not 14 bytes long is malformed, whatever the field (R71). -/
theorem afterDec_malformed (u : Half) {rx : List Byte} (hlen : rx.length ≠ 14) (s : State) :
    afterDec (u, rx) s = afterReply .malformedReply none none s :=
  if_neg hlen

/-- A reply of 14 bytes answers `OK` with the field and its remap (R71). -/
theorem afterDec_ok (u : Half) {rx : List Byte} (hlen : rx.length = 14) (s : State) :
    afterDec (u, rx) s = afterReply .ok (some u) (some (remap s.cfg (rawValue s.cfg u))) s :=
  if_pos hlen

/-- The answer to a reply of 14 bytes, with the field `x` and its reading `v` as numbers (R71, R74, R75). -/
theorem afterDec_field {u : Half} {rx : List Byte} (hlen : rx.length = 14) {s : State} {x : Nat} {v : Int}
    (hx : x = u.toNat) (hv : v = if s.cfg.rawSigned = true ∧ 32768 ≤ x then (x : Int) - 65536 else (x : Int)) :
    afterDec (u, rx) s = afterReply .ok (some (BitVec.ofNat 16 x))
      (some (BitVec.ofInt 32 (s.cfg.servoMin.toInt +
        max 0 (min v 1000) * (s.cfg.servoMax.toInt - s.cfg.servoMin.toInt) / 1000))) s := by
  subst hx hv
  rw [afterDec_ok u hlen, remap_eq, rawValue_eq, BitVec.ofNat_toNat, BitVec.setWidth_eq]

/-- Settles O28: path A's field is bytes 11 and 12 in `POS_ORDER_A` order. -/
theorem decodeAReadsBytesElevenAndTwelve : Obligations.DecodeAReadsBytesElevenAndTwelve := by
  intro rx s
  rw [exec_decodeA]
  refine ⟨fun hlen => by rw [afterDec_malformed _ hlen], fun hlen x v hx hv => ?_⟩
  rw [afterDec_field hlen ?_ hv]
  rw [hx, fieldA_eq]
  cases s.cfg.posOrderA
  · exact (readField_le_toNat _ _).symm
  · exact (readField_be_toNat _ _).symm

/-- Settles O29: path B's field is bytes 12 and 11 in `POS_ORDER_A` order. -/
theorem decodeBReadsThemInTheOtherOrder : Obligations.DecodeBReadsThemInTheOtherOrder := by
  intro rx s
  rw [exec_decodeB]
  refine ⟨fun hlen => by rw [afterDec_malformed _ hlen], fun hlen x v hx hv => ?_⟩
  rw [afterDec_field hlen ?_ hv]
  rw [hx, fieldB_eq _ rx hlen]
  cases s.cfg.posOrderA
  · exact (Nat.add_comm _ _).trans (readField_le_toNat _ _).symm
  · exact (Nat.add_comm _ _).trans (readField_be_toNat _ _).symm

/-- Settles O31: both paths' fields are fixed by bytes 11 and 12, and the answer to a reply of 14 bytes by the field. -/
theorem decoderChecksNothingButTheLength : Obligations.DecoderChecksNothingButTheLength := by
  intro rx rx' s hlen hlen' h11 h12
  have hA : fieldA s.cfg.posOrderA rx = fieldA s.cfg.posOrderA rx' := by rw [fieldA_eq, fieldA_eq, h11, h12]
  have hB : fieldB s.cfg.posOrderA rx = fieldB s.cfg.posOrderA rx' := by
    rw [fieldB_eq _ rx hlen, fieldB_eq _ rx' hlen', h11, h12]
  simp only [exec_decodeA, exec_decodeB, afterDec_ok _ hlen, afterDec_ok _ hlen', hA, hB, true_and]
  exact ⟨⟨_, rfl, rfl⟩, ⟨_, rfl, rfl⟩⟩

/-- Settles O56: a valid port carries at least 15 bytes, so what exceeds it is not 14 bytes long. -/
theorem overlongReplyIsMalformed : Obligations.OverlongReplyIsMalformed := by
  intro r s hvalid hlong
  obtain ⟨-, hrxMax⟩ := (configValid_iff s.cfg).mp hvalid
  have hover : s.cfg.rxMax < r.rxlen.toNat := by simpa [Request.presentable] using hlong
  have hlen : (r.rx.toList.take r.rxlen.toNat).length ≠ 14 := by
    rw [List.length_take, Vector.length_toList]
    omega
  rw [decode, decodeDec]
  split
  · rw [exec_decodeA, afterDec_malformed _ hlen]
  · rw [exec_decodeB, afterDec_malformed _ hlen]

/-- A larger reading never gives a smaller exact remap (R75). -/
theorem remapInt_mono {c : Config} (hscale : c.servoMin.toInt < c.servoMax.toInt) {v w : Int} (hvw : v ≤ w) :
    remapInt c v ≤ remapInt c w := by
  have hclamp : clamp v rawLo rawHi - rawLo ≤ clamp w rawLo rawHi - rawLo := by
    rw [clamp_eq_max_min v _ _ (by decide), clamp_eq_max_min w _ _ (by decide)]
    omega
  have hmul := Int.mul_le_mul_of_nonneg_right hclamp (show 0 ≤ c.servoMax.toInt - c.servoMin.toInt by omega)
  exact Int.add_le_add_left (Int.ediv_le_ediv (by decide) hmul) _

/-- Settles O32: on a valid scale the 32-bit port holds the exact remap, which stays on the scale and is monotone. -/
theorem remapStaysOnTheScale : Obligations.RemapStaysOnTheScale := by
  intro c v w hvalid hvw
  obtain ⟨hscale, -⟩ := (configValid_iff c).mp hvalid
  rw [remap_toInt c v hscale, remap_toInt c w hscale]
  exact ⟨(remapInt_mem_scale c v hscale).1, remapInt_mono hscale hvw, (remapInt_mem_scale c w hscale).2⟩

/-- A reading at or below `RAW_LO` remaps to `SERVO_MIN` (R75). -/
theorem remap_eq_servoMin (c : Config) {v : Int} (hv : v ≤ 0) : remap c v = c.servoMin := by
  have hclamp : max 0 (min v 1000) = 0 := by omega
  simp [remap_eq, hclamp]

/-- A reading at or above `RAW_HI` remaps to `SERVO_MAX` (R75). -/
theorem remap_eq_servoMax (c : Config) {v : Int} (hv : 1000 ≤ v) : remap c v = c.servoMax := by
  have hclamp : max 0 (min v 1000) = 1000 := by omega
  rw [remap_eq, hclamp, Int.mul_ediv_cancel_left _ (by decide), add_sub_cancel, BitVec.ofInt_toInt]

/-- Half of the raw range remaps to the middle of the scale, rounded down (R75). -/
theorem remapInt_midpoint (c : Config) :
    remapInt c 500 = c.servoMin.toInt + (c.servoMax.toInt - c.servoMin.toInt) / 2 := by
  have hclamp : clamp 500 rawLo rawHi - rawLo = 500 := by decide
  have hrange : rawHi - rawLo = 1000 := by decide
  rw [remapInt, hclamp, hrange]
  omega

/-- Settles O33: the clamp's two ends and the exact remap of 500. -/
theorem remapAnchorsEndsAndMidpoint : Obligations.RemapAnchorsEndsAndMidpoint := by
  intro c v hvalid
  obtain ⟨hscale, -⟩ := (configValid_iff c).mp hvalid
  refine ⟨remap_eq_servoMin c, remap_eq_servoMax c, ?_⟩
  rintro rfl
  rw [remap_toInt c 500 hscale, remapInt_midpoint]

/-- Settles O34: from 0x8000 on the signed reading is negative and the unsigned one above 1000. -/
theorem signMattersFromTheTopBitOnly : Obligations.SignMattersFromTheTopBitOnly := by
  intro c u _
  have hbound := u.isLt
  have hunsigned : rawValue { c with rawSigned := false } u = u.toNat := rfl
  constructor
  · intro hlow
    have hnot : ¬ 32768 ≤ u.toNat := by omega
    simp [rawValue_eq, hnot]
  · intro hhigh
    have hsigned : rawValue { c with rawSigned := true } u = u.toNat - 65536 := by
      rw [rawValue_eq, if_pos ⟨rfl, hhigh⟩]
    rw [hsigned, hunsigned]
    exact ⟨rfl, remap_eq_servoMin c (by omega), remap_eq_servoMax c (by omega)⟩

end Sys2Proof.Machine
end

section
/-! SUPPORT. The exceptions (spec/60_exceptions.md): the status codes (R79), what a failed transaction leaves behind (R80), the
one fault and the run it marks (R82), and a transaction at each port in either order (R88). -/

namespace Sys2Proof.Machine

/-- The status a 3-bit code names (R79). -/
def statusOfCode (code : BitVec 3) : Status :=
  match code.toNat with
  | 0 => .ok
  | 1 => .malformedReply
  | 2 => .unsupported
  | 3 => .errCmd
  | 4 => .errInstr
  | 5 => .errShape
  | 6 => .errMsglen
  | _ => .noneYet

theorem statusOfCode_statusCode (st : Status) : statusOfCode (statusCode st) = st := by
  cases st <;> rfl

/-- Settles O55: a code names one status, so no two statuses share it. -/
theorem statusCodesAreDistinct : Obligations.StatusCodesAreDistinct :=
  ⟨rfl, rfl, rfl, rfl, rfl, rfl, rfl, rfl,
    fun _ _ h => Function.LeftInverse.injective statusOfCode_statusCode h⟩

/-- An encoder response of another status than `OK` is a refusal. -/
theorem afterEnc_of_ne_ok {r : Status × List Byte} {s : State} (h : (afterEnc r s).encStatus ≠ .ok) :
    afterEnc r s = afterRefusal (afterEnc r s).encStatus s := by
  unfold afterEnc at h ⊢
  split at h
  · exact absurd rfl h
  · rw [if_neg ‹_›]; rfl

/-- A decoder response of another status than `OK` leaves no value. -/
theorem afterDec_of_ne_ok {r : Half × List Byte} {s : State} (h : (afterDec r s).decStatus ≠ .ok) :
    afterDec r s = afterReply (afterDec r s).decStatus none none s := by
  unfold afterDec at h ⊢
  split at h
  · exact absurd rfl h
  · rw [if_neg ‹_›]; rfl

/-- Settles O37: the response of either unit, with another status than `OK`, is the one that `raise` gives. -/
theorem failedTransactionChangesOnlyItsLatches : Obligations.FailedTransactionChangesOnlyItsLatches := by
  intro i s t h
  constructor
  · intro henc hne
    rw [exec_encoder henc] at h
    cases h
    exact afterEnc_of_ne_ok hne
  · intro hdec hne
    rw [exec_decoder hdec] at h
    cases h
    exact afterDec_of_ne_ok hne

/-- The two units write different fields (R20). -/
theorem afterDec_afterEnc (d : Half × List Byte) (e : Status × List Byte) (s : State) :
    afterDec d (afterEnc e s) = afterEnc e (afterDec d s) := by
  rw [afterDec_eq, afterEnc_eq, afterEnc_eq, afterDec_eq]

/-- Settles O39: each response is fixed by instruction and configuration, which the other unit keeps, and the two write
different fields. -/
theorem encoderAndDecoderCommute : Obligations.EncoderAndDecoderCommute := by
  intro i j s henc hdec
  refine ⟨_, _, _, exec_encoder henc s, exec_decoder hdec _, exec_decoder hdec s, ?_⟩
  rw [exec_encoder henc, afterEnc_cfg, afterDec_cfg, afterDec_afterEnc]

/-- A step faults exactly when it serves, under a valid configuration, a read of a latch that holds ⊥ (R82). -/
theorem step_eq_fault_iff {s : State} {f : Fault} :
    step s = .fault f ↔ configValid s.cfg = true ∧
      ∃ l rest, s.inputs = .read l :: rest ∧ latchValue l s.toBlock = none ∧ f = .latchHoldsNoValue l := by
  constructor
  · intro h
    rcases step_stop_cases s with ⟨t, hs⟩ | ⟨-, hs⟩ | ⟨l, rest, hc, hi, hl, hs⟩
    · rw [hs] at h; cases h
    · rw [hs] at h; cases h
    · rw [hs] at h; cases h
      exact ⟨hc, l, rest, hi, hl, rfl⟩
  · rintro ⟨hc, l, rest, hi, hl, rfl⟩
    exact step_read_bottom hc hi hl

/-- Settles O46, by `step_eq_fault_iff`. -/
theorem onlyLatchReadsFault : Obligations.OnlyLatchReadsFault := fun _ _ h => (step_eq_fault_iff.mp h).2

/-- A run whose first step answers goes on from the state it answers. -/
theorem run_succ_of_step {s t : State} (h : step s = .next t) (n : Nat) : core.run (n + 1) s = core.run n t := by
  have hcore : core.step s = .next t := h
  simp only [Host.Core.run, hcore]

/-- A run is faulted when its first step faults, or when that step answers and the rest of the run is faulted. -/
theorem run_succ_eq_fault_iff {n : Nat} {s : State} {f : Fault} :
    core.run (n + 1) s = .fault f ↔ step s = .fault f ∨ ∃ t, step s = .next t ∧ core.run n t = .fault f := by
  have hcore : core.step s = step s := rfl
  simp only [Host.Core.run, hcore]
  cases step s with
  | next t => simp
  | fault g => exact (or_iff_left fun ⟨_, hs, _⟩ => nomatch hs).symm
  | refused why => simp

/-- A run is faulted exactly when one of its steps faults. -/
theorem run_eq_fault_iff {n : Nat} {s : State} {f : Fault} :
    core.run n s = .fault f ↔ ∃ m t, m < n ∧ core.run m s = .next t ∧ step t = .fault f := by
  induction n generalizing s with
  | zero => exact ⟨nofun, fun ⟨_, _, hm, _⟩ => absurd hm (Nat.not_lt_zero _)⟩
  | succ n ih =>
    rw [run_succ_eq_fault_iff]
    constructor
    · rintro (hs | ⟨t, hs, hrun⟩)
      · exact ⟨0, s, n.succ_pos, rfl, hs⟩
      · obtain ⟨m, u, hm, hreach, hu⟩ := ih.mp hrun
        exact ⟨m + 1, u, Nat.succ_lt_succ hm, (run_succ_of_step hs m).trans hreach, hu⟩
    · rintro ⟨m, u, hm, hreach, hu⟩
      cases m with
      | zero =>
        cases hreach
        exact .inl hu
      | succ m =>
        obtain ⟨t, hs, hreach⟩ := run_succ_next hreach
        exact .inr ⟨t, hs, ih.mpr ⟨m, u, Nat.lt_of_succ_lt_succ hm, hreach, hu⟩⟩

/-- Settles O47: a run faults when one of its steps does, and that step, taken under the run's configuration, served a read of
a latch that holds ⊥. -/
theorem bottomReadFaultsTheRunForGood : Obligations.BottomReadFaultsTheRunForGood := by
  intro n s f hc
  rw [run_eq_fault_iff]
  constructor
  · rintro ⟨m, t, hm, hrun, hstep⟩
    obtain ⟨-, l, rest, hi, hl, hf⟩ := step_eq_fault_iff.mp hstep
    exact ⟨m, t, l, rest, hm, hrun, hi, (holdsBottom_iff l t).mpr hl, hf⟩
  · rintro ⟨m, t, l, rest, hm, hrun, hi, hl, hf⟩
    have hvalid : configValid t.cfg = true := by rw [configurationNeverChanges m s t hrun, hc]
    exact ⟨m, t, hm, hrun, step_eq_fault_iff.mpr ⟨hvalid, l, rest, hi, (holdsBottom_iff l t).mp hl, hf⟩⟩

end Sys2Proof.Machine
end

section
/-! SUPPORT. Reset and hazards (spec/70_reset_and_hazards.md): what a reset leaves (R90), and the configurations whose blocks
have no step (R92). -/

namespace Sys2Proof.Machine

/-- Settles O43: a step that serves a reset answers `afterReset`, whatever transaction it names as in progress. -/
theorem resetClearsTheLatchesOnly : Obligations.ResetClearsTheLatchesOnly := by
  intro s inFlight rest hc hi
  exact ⟨_, step_reset hc hi, rfl, rfl, rfl, rfl, rfl, rfl, rfl, rfl, rfl, rfl⟩

/-- A step is refused exactly when the configuration is invalid (R92): the only other stop is a latch read's fault. -/
theorem step_eq_refused_iff {s : State} {r : Refusal} :
    step s = .refused r ↔ configValid s.cfg = false ∧ r = .invalidConfig := by
  constructor
  · intro h
    rcases step_stop_cases s with ⟨t, hs⟩ | ⟨hc, hs⟩ | ⟨l, rest, -, -, -, hs⟩
    · rw [hs] at h; cases h
    · rw [hs] at h; cases h
      exact ⟨hc, rfl⟩
    · rw [hs] at h; cases h
  · rintro ⟨hc, rfl⟩
    exact step_invalid hc

/-- Settles O42: the checks of `configValid` that can fail are the order of the servo bounds and the least `RX_MAX`. -/
theorem invalidConfigurationHasNoStep : Obligations.InvalidConfigurationHasNoStep := by
  intro s
  calc (∃ r, step s = .refused r)
      ↔ configValid s.cfg = false := by simp only [step_eq_refused_iff, exists_and_left, exists_eq, and_true]
    _ ↔ ¬configValid s.cfg = true := Bool.eq_false_iff
    _ ↔ ¬(s.cfg.servoMin.toInt < s.cfg.servoMax.toInt ∧ (15 : Nat) ≤ s.cfg.rxMax) := not_congr (configValid_iff s.cfg)

end Sys2Proof.Machine
end
